-- ==== Sys2Proof/Word.lean ====
section
/-! DEFINITION. The machine's word types (00_scope.md R7: REGW, TABLE_ENTRY_W and AW are 32 bits, a byte is 8). -/

namespace Sys2Proof

/-- A 32-bit value: REG, a table entry, a command or operand word (R7, R60). -/
abbrev Word := BitVec 32

/-- One byte of a stream, of the input memory or of OUT (R7, R40). -/
abbrev Byte := BitVec 8

/-- A byte address of the input memory, AW = 32 bits (R7, R40). -/
abbrev Address := BitVec 32

end Sys2Proof
end

