-- ==== Sys2Proof/Config.lean ====
section
/-! DEFINITION. What the implementation fixes (00_scope.md R7) and the model's one free value.
The parameters CAPS, BACKENDS and Readable are plain data in State (notes/assumptions/4.md, 6.md). -/

namespace Sys2Proof

/-- Bytes the input memory can address, 2^AW with AW = 32 (R7, R40). -/
abbrev Config.addressSpace : Nat := 2 ^ 32

/-- What a byte of the input memory that is not listed holds (notes/assumptions/19.md, DESIGN CHOICE). -/
def Config.unlistedByte : Byte := 0

/-- FREE VALUE (notes/assumptions/5.md, DESIGN CHOICE, safe). What backend number `k` makes of a register value
and a byte sequence where 44_dispatch_write.md R113 gives no contract: a family-24 backend on a register whose top
byte is not zero (91_not_in_source.md N22), or an index that names no backend. It has no body: nothing can be
proved of its value. -/
opaque Config.backendFree : Nat → Word → List Byte → Word

end Sys2Proof
end

