-- ==== Sys2Proof/Syntax.lean ====
section
/-! DEFINITION. The commands of the core: one constructor per row of spec/opcode_table.json (30_encoding.md R62, R78). -/

namespace Sys2Proof

/-- A command with its operands as 30_encoding.md R62 to R68 name them. A variant code V is the raw 2-bit field: the
value 3 is reserved (R71), and the commands that carry it fault by their own precheck (60_exceptions.md R142). -/
inductive Instr where
  /-- INIT V (R63): bind the context to variant V. -/
  | init (v : BitVec 2)
  /-- WRITE ADDR, LEN (R66): consume a buffer of the input memory. -/
  | write (addr : Address) (len : BitVec 32)
  /-- WRB B (R64): consume one byte. -/
  | wrb (b : Byte)
  /-- WRW DATA (R65): consume four bytes, the first in bits 7:0. -/
  | wrw (data : Word)
  /-- FINAL (R68): finalize the checksum. -/
  | final
  /-- READ (R68): return the output buffer. -/
  | read
  /-- TBLRD V, IDX (R67): return a table entry. -/
  | tblrd (v : BitVec 2) (idx : BitVec 10)
  /-- STAT (R68): return the status word. -/
  | stat
  deriving DecidableEq, Repr

end Sys2Proof
end

