-- ==== Sys2Proof/Machine/State.lean ====
section
/-! DEFINITION. The state of the core, of the platform's parameters and of the two ports (10_state.md), the reasons a
step can stop, and the state after reset. -/

namespace Sys2Proof.Machine

/-- PHASE (R23): no context bound, running, finalized. -/
inductive Phase where
  | idle
  | active
  | finalized
  deriving DecidableEq, Repr

/-- VARIANT (R24): the three variants of 00_scope.md R2. The reserved code 3 is never held. -/
inductive Variant where
  | crc32
  | crc32Rfc1510
  | crc24Rfc2440
  deriving DecidableEq, Repr

/-- The variants that share one table (R13, 41_table_generator.md R85): family 32 and family 24. It also names the
table, TAB32 or TAB24. -/
inductive Family where
  | f32
  | f24
  deriving DecidableEq, Repr

/-- BACKEND (R24): NONE, or ACCEL(k) with k an index into BACKENDS. -/
inductive Backend where
  | none
  | accel (k : Nat)
  deriving DecidableEq, Repr

/-- CAUSE (R26, 60_exceptions.md R141): 0 NONE to 7 READ_BEFORE_FINAL. The codes 8 to 15 are never held. -/
inductive Cause where
  | none
  | illegalOpcode
  | reservedField
  | badVariant
  | notInitialized
  | writeAfterFinal
  | finalTwice
  | readBeforeFinal
  deriving DecidableEq, Repr

/-- OUT[0..3] (R25). -/
structure OutBuffer where
  b0 : Byte
  b1 : Byte
  b2 : Byte
  b3 : Byte
  deriving DecidableEq, Repr

/-- One entry of BACKENDS (44_dispatch_write.md R110). Its update function is `Machine.backendUpdate`; `required` is
the set req_k as a bit set, bit f standing for flag f, as CAPS is. -/
structure BackendEntry where
  family : Family
  required : Nat
  compiled : Bool
  deriving DecidableEq, Repr

/-- A response (30_encoding.md R74): RSTAT is 0 for success and 1 for fault or refusal. -/
structure Response where
  rstat : BitVec 1
  rdata : Word
  deriving DecidableEq, Repr

/-- A run of `size` input-memory addresses from `base` (20_memory.md R41). -/
structure Region where
  base : Address
  size : Nat
  deriving DecidableEq, Repr

/-- What the host and its platform can do (70_reset_and_hazards.md R170). -/
inductive HostAction where
  /-- Send a word on the command port. -/
  | send (w : Word)
  /-- Store a byte in the input memory. -/
  | store (addr : Address) (b : Byte)
  /-- Make exactly these regions readable (R162, R170; 20_memory.md R49). -/
  | setReadable (regions : List Region)
  /-- Pull reset when the core has answered the last command it received whole. -/
  | reset
  /-- Pull reset before the core has answered that command: "a command in progress" is discarded (R170). -/
  | resetInProgress
  deriving DecidableEq, Repr

/-- The input memory IMEM (20_memory.md R40): an address that is not listed holds `Config.unlistedByte`
(notes/assumptions/19.md). Canonical form: addresses strictly rising, no listed byte that value (`Memory.wf`). -/
abbrev Memory := List Host.Cell

/-- The whole state: the core's elements (R20), the parameters of 00_scope.md R7, and what stands between core and
host. The constant tables (R28) are `Machine.entry` (notes/assumptions/9.md). -/
structure State where
  /-- REG (R21). -/
  reg : Word
  /-- PHASE (R23). -/
  phase : Phase
  /-- VARIANT (R24). -/
  variant : Variant
  /-- BACKEND (R24). -/
  backend : Backend
  /-- OUT (R25). -/
  out : OutBuffer
  /-- ERR (R26). -/
  err : Bool
  /-- CAUSE (R26). -/
  cause : Cause
  /-- CAPS (00_scope.md R7, 44_dispatch_write.md R112), a bit set, constant. -/
  caps : Nat
  /-- BACKENDS (00_scope.md R7, 44_dispatch_write.md R110), constant. -/
  backends : List BackendEntry
  /-- IMEM (20_memory.md R40), the host's. -/
  mem : Memory
  /-- Readable (00_scope.md R7, 20_memory.md R41, R49), the platform's: an address is readable exactly if a region
  holds it (notes/assumptions/6.md). -/
  readable : List Region
  /-- The words received of a command that is not complete (30_encoding.md R61, R75). -/
  rx : List Word
  /-- The model's own: addresses the host stored to since the first word of the command in `rx`
  (20_memory.md R50 (b), notes/assumptions/8.md). -/
  touched : List Address
  /-- What the host does next, oldest first (30_encoding.md R60, notes/assumptions/1.md). -/
  host : List HostAction
  /-- The responses sent, oldest first (30_encoding.md R74). -/
  responses : List Response
  deriving DecidableEq, Repr

/-- Why the machine stops. Taking a misuse fault of 60_exceptions.md R140 is NOT one of these: it is a next state. -/
inductive Fault where
  /-- Raised by WRITE when its buffer is not admitted (20_memory.md R43): "the core is stuck, takes no fault, sends
  no response and changes no state, for ever". Safe: no state follows where the spec gives none. -/
  | stuckWrite
  deriving DecidableEq, Repr

/-- Why an instruction is given no meaning. -/
inductive Refusal where
  /-- Raised by an arm of exec whose instruction has no meaning yet. Safe. No arm raises it now. -/
  | notModelled (mnemonic : String)
  /-- Raised by WRITE when the host stored into the buffer between the command's first word and its execution: such
  a host "is outside the model" (20_memory.md R50 (b); 93_implementation_defined.md U15 `refuse`). Safe. -/
  | bufferChangedDuringWrite
  deriving DecidableEq, Repr

/-- The machine right after reset (R32, R160). REG and OUT are unspecified there: 0 by DESIGN CHOICE
(notes/assumptions/2.md, 3.md). The parameters are the reference configuration (notes/assumptions/4.md), no byte of
the input memory is readable, every byte is `Config.unlistedByte`, and the host has sent nothing. -/
def State.reset : State where
  reg := 0
  phase := .idle
  variant := .crc32
  backend := .none
  out := { b0 := 0, b1 := 0, b2 := 0, b3 := 0 }
  err := false
  cause := .none
  caps := 0
  backends := []
  mem := []
  readable := []
  rx := []
  touched := []
  host := []
  responses := []

end Sys2Proof.Machine
end

