-- ==== Sys2Proof/Machine/Bits.lean ====
section
/-! DEFINITION. The byte-order functions of 00_scope.md R9 and R10, and the numeric codes of the enumerations that
the status word shows (10_state.md R23, R24, R27; 60_exceptions.md R141). -/

namespace Sys2Proof.Machine

/-- Byte `k` of a word: bits 8k+7 down to 8k (R8). -/
def byteAt (k : Nat) (w : Word) : Byte := w.extractLsb' (8 * k) 8

/-- LE32 (R10): the first byte lands in bits 7:0. -/
def le32 (b0 b1 b2 b3 : Byte) : Word :=
  b0.setWidth 32 ||| b1.setWidth 32 <<< 8 ||| b2.setWidth 32 <<< 16 ||| b3.setWidth 32 <<< 24

/-- bswap32 (R9): the four bytes reversed. -/
def bswap32 (v : Word) : Word :=
  (byteAt 0 v).setWidth 32 <<< 24 ||| (byteAt 1 v).setWidth 32 <<< 16 ||| (byteAt 2 v).setWidth 32 <<< 8 |||
    (byteAt 3 v).setWidth 32

/-- BE_BYTES (R10): the most significant byte is OUT[0]. -/
def beBytes (v : Word) : OutBuffer :=
  { b0 := byteAt 3 v, b1 := byteAt 2 v, b2 := byteAt 1 v, b3 := byteAt 0 v }

/-- LE_BYTES (R10): the least significant byte is OUT[0]. -/
def leBytes (v : Word) : OutBuffer :=
  { b0 := byteAt 0 v, b1 := byteAt 1 v, b2 := byteAt 2 v, b3 := byteAt 3 v }

/-- The concatenation of OUT[0], OUT[1], OUT[2] and OUT[3], OUT[0] in bits 31:24 (30_encoding.md R74). -/
def outWord (o : OutBuffer) : Word :=
  o.b0.setWidth 32 <<< 24 ||| o.b1.setWidth 32 <<< 16 ||| o.b2.setWidth 32 <<< 8 ||| o.b3.setWidth 32

/-- The code of PHASE in the status word (10_state.md R23, R27). -/
def phaseCode : Phase → BitVec 2
  | .idle => 0
  | .active => 1
  | .finalized => 2

/-- The code V of a variant (00_scope.md R2). -/
def variantCode : Variant → BitVec 2
  | .crc32 => 0
  | .crc32Rfc1510 => 1
  | .crc24Rfc2440 => 2

/-- The code of CAUSE (60_exceptions.md R141). -/
def causeCode : Cause → BitVec 4
  | .none => 0
  | .illegalOpcode => 1
  | .reservedField => 2
  | .badVariant => 3
  | .notInitialized => 4
  | .writeAfterFinal => 5
  | .finalTwice => 6
  | .readBeforeFinal => 7

/-- ERR as the bit the status word shows (10_state.md R27). -/
def errBit (e : Bool) : BitVec 1 := BitVec.ofBool e

end Sys2Proof.Machine
end

