-- ==== Sys2Proof/Machine/Tables.lean ====
section
/-! DEFINITION. The table generator: the constant tables TAB32 and TAB24 (41_table_generator.md R80 to R85). -/

namespace Sys2Proof.Machine

/-- One turn of R81's loop: shift right, and fold the reflected polynomial in where the bit shifted out is 1. -/
def shiftRight32 (c : Word) : Word := if c.getLsbD 0 then (c >>> 1) ^^^ 0xEDB88320#32 else c >>> 1

/-- One turn of R82's loop: shift left, and fold the polynomial scaled by x^8 in where the bit shifted out is 1. -/
def shiftLeft24 (c : Word) : Word := if c.getLsbD 31 then (c <<< 1) ^^^ 0x864CFB00#32 else c <<< 1

/-- `f` applied `n` times. -/
def repeatTimes (f : Word → Word) : Nat → Word → Word
  | 0, c => c
  | n + 1, c => repeatTimes f n (f c)

/-- Slice 0 of a table: R81 for TAB32, R82 for TAB24. -/
def slice0 : Family → Byte → Word
  | .f32, i => repeatTimes shiftRight32 8 (i.setWidth 32)
  | .f24, i => bswap32 (repeatTimes shiftLeft24 8 (i.setWidth 32 <<< 24))

/-- Slice `k` of a table, T_k[i] (R80): each is made from the slice before by one zero-byte step (R83). -/
def slice (t : Family) : Nat → Byte → Word
  | 0, i => slice0 t i
  | k + 1, i => (slice t k i >>> 8) ^^^ slice0 t (byteAt 0 (slice t k i))

/-- T[n], an entry of a table by its full index, 0 to 1023: slice n / 256, byte n % 256 (R80). -/
def entry (t : Family) (n : Nat) : Word := slice t (n / 256) (BitVec.ofNat 8 n)

/-- The family of a variant, which is its table T_V (R85): V = 0 and V = 1 share TAB32. -/
def familyOf : Variant → Family
  | .crc32 => .f32
  | .crc32Rfc1510 => .f32
  | .crc24Rfc2440 => .f24

end Sys2Proof.Machine
end

