-- ==== Sys2Proof/Machine/Engines.lean ====
section
/-! DEFINITION. The scalar (Sarwate) engine and the 4-byte slicing engine (42_scalar_engine.md, 43_slicing_engine.md). -/

namespace Sys2Proof.Machine

/-- next(T, c, b) (R90). -/
def next (t : Family) (c : Word) (b : Byte) : Word := (c >>> 8) ^^^ entry t (byteAt 0 c ^^^ b).toNat

/-- upd_ref(T, c, s) (R91): `next` folded over the bytes from first to last. -/
def updRef (t : Family) : Word → List Byte → Word
  | c, [] => c
  | c, b :: s => updRef t (next t c b) s

/-- next4(T, c, w) (R100): the first stream byte meets slice 3, the fourth slice 0. -/
def next4 (t : Family) (c w : Word) : Word :=
  entry t ((byteAt 0 (c ^^^ w)).toNat + 768) ^^^ entry t ((byteAt 1 (c ^^^ w)).toNat + 512) ^^^
    entry t ((byteAt 2 (c ^^^ w)).toNat + 256) ^^^ entry t (byteAt 3 (c ^^^ w)).toNat

/-- `next4` over the leading groups of four bytes, as many as `n`, each packed little-endian (20_memory.md R44). Gives
the register and the bytes not consumed. -/
def next4Times (t : Family) : Nat → Word → List Byte → Word × List Byte
  | n + 1, c, b0 :: b1 :: b2 :: b3 :: s => next4Times t n (next4 t c (le32 b0 b1 b2 b3)) s
  | _, c, s => (c, s)

/-- The 16-byte tier of R103: rounds of four `next4` steps while at least 16 bytes remain. -/
def tier16 (t : Family) (c : Word) (s : List Byte) : Word × List Byte := next4Times t (4 * (s.length / 16)) c s

/-- The 4-byte tier of R103: one `next4` step while at least 4 bytes remain. -/
def tier4 (t : Family) (c : Word) (s : List Byte) : Word × List Byte := next4Times t (s.length / 4) c s

/-- upd_tier(T, c, s) (R103): the 16-byte tier, the 4-byte tier, then the scalar engine for the last 0 to 3 bytes. -/
def updTier (t : Family) (c : Word) (s : List Byte) : Word :=
  let r16 := tier16 t c s
  let r4 := tier4 t r16.1 r16.2
  updRef t r4.1 r4.2

end Sys2Proof.Machine
end

