-- ==== Sys2Proof/Machine/Backends.lean ====
section
/-! DEFINITION. The accelerated backends: selection at INIT and the contract on their update function
(44_dispatch_write.md R110 to R113, R117). -/

namespace Sys2Proof.Machine

/-- The backend serves the family, is compiled in, and all its required flags are in CAPS (R111). -/
def qualifies (caps : Nat) (t : Family) (b : BackendEntry) : Bool :=
  b.family == t && b.compiled && (b.required &&& caps) == b.required

/-- The first qualifying entry of a list whose first entry has index `k` (R111: the least index wins). -/
def selectFrom (caps : Nat) (t : Family) : Nat → List BackendEntry → Backend
  | _, [] => .none
  | k, b :: bs => if qualifies caps t b then .accel k else selectFrom caps t (k + 1) bs

/-- select(V) (R111). NONE where no backend qualifies (R117). -/
def select (caps : Nat) (backends : List BackendEntry) (v : Variant) : Backend :=
  selectFrom caps (familyOf v) 0 backends

/-- The register values the contract of R113 speaks of: all for family 32, a zero top byte for family 24. -/
def contractCovers (t : Family) (c : Word) : Bool :=
  match t with
  | .f32 => true
  | .f24 => byteAt 3 c == 0

/-- upd_k(c, s) (R110). Where the contract of R113 speaks it is upd_ref of the backend's own family; elsewhere it is
a free value (91_not_in_source.md N22, notes/assumptions/5.md). -/
def backendUpdate (backends : List BackendEntry) (k : Nat) (c : Word) (s : List Byte) : Word :=
  match backends[k]? with
  | some b => if contractCovers b.family c then updRef b.family c s else Config.backendFree k c s
  | none => Config.backendFree k c s

/-- What WRITE makes of the register (R114, R116): the whole buffer goes to the backend selected at INIT, or through
the tiers where none is. -/
def consumeBuffer (s : State) (bytes : List Byte) : Word :=
  match s.backend with
  | .accel k => backendUpdate s.backends k s.reg bytes
  | .none => updTier (familyOf s.variant) s.reg bytes

end Sys2Proof.Machine
end

