-- ==== Sys2Proof/Machine/Ops.lean ====
section
/-! DEFINITION. The named operations over the state: the response, the misuse fault and the refusal, the precheck's
frame (60_exceptions.md R140 to R144), reset (70_reset_and_hazards.md R160), and the input memory (20_memory.md). -/

namespace Sys2Proof.Machine

/-- The outcome of a step of this machine. -/
abbrev StepOutcome := Host.Outcome State Fault Refusal

/-- respond(rstat, rdata): the command's one response (00_scope.md R11, 30_encoding.md R74). -/
def State.respond (s : State) (rstat : BitVec 1) (rdata : Word) : State :=
  { s with responses := s.responses ++ [{ rstat := rstat, rdata := rdata }] }

/-- raise Fault(k) (R140): ERR and CAUSE are written, the response is (1, 0), nothing else changes. There is no
return from it but reset (R146). -/
def takeFault (k : Cause) (s : State) : State := State.respond { s with err := true, cause := k } 1 0

/-- The command is refused (R144): the response is (1, 0), nothing else changes. -/
def refuse (s : State) : State := s.respond 1 0

/-- A command with the misuse `k`: refused if ERR is 1 already, else it takes the fault (R142, R143). -/
def misuse (k : Cause) (s : State) : State := if s.err then refuse s else takeFault k s

/-- The precheck's frame (R142): refused if ERR = 1, else the fault of the phase cause if there is one, else the
command's own rule. -/
def precheck (phaseCause : Option Cause) (s : State) (rule : State → StepOutcome) : StepOutcome :=
  if s.err then .next (refuse s)
  else
    match phaseCause with
    | some k => .next (takeFault k s)
    | none => rule s

/-- Reset of the core (R160, 10_state.md R32): every element of R20 to its reset value and any partly received
command discarded. The parameters, the host's memory, what the host does next and the responses already sent are not
the core's. REG and OUT: notes/assumptions/2.md, 3.md. -/
def coreReset (s : State) : State :=
  { s with
    reg := State.reset.reg, phase := .idle, variant := .crc32, backend := .none, out := State.reset.out
    err := false, cause := .none, rx := [], touched := [] }

/-- IMEM[x] (20_memory.md R40). -/
def Memory.read : Memory → Nat → Byte
  | [], _ => Config.unlistedByte
  | (a, b) :: m, x => if x = a then b else Memory.read m x

/-- The byte `v` at address `x` in front of a list of higher addresses: listed only if it must be. -/
def Memory.put (x : Nat) (v : Byte) (m : Memory) : Memory := if v = Config.unlistedByte then m else (x, v) :: m

/-- The host's write of one byte (70_reset_and_hazards.md R162, R170). It keeps the canonical form. -/
def Memory.write : Memory → Nat → Byte → Memory
  | [], x, v => Memory.put x v []
  | (a, b) :: m, x, v =>
    if x < a then Memory.put x v ((a, b) :: m)
    else if x = a then Memory.put x v m
    else (a, b) :: Memory.write m x v

/-- Every address of the list is above `lo`, below 2^32, they rise strictly, and no byte is the unlisted one. -/
def Memory.risesFrom : Option Nat → Memory → Bool
  | _, [] => true
  | lo, (a, b) :: m =>
    (match lo with | none => true | some l => decide (l < a)) && decide (a < Config.addressSpace) &&
      b != Config.unlistedByte && Memory.risesFrom (some a) m

/-- The canonical form of the input memory. -/
def Memory.wf (m : Memory) : Bool := Memory.risesFrom none m

/-- The region holds the address. -/
def regionHolds (a : Nat) (r : Region) : Bool := decide (r.base.toNat ≤ a) && decide (a < r.base.toNat + r.size)

/-- Readable(a) (20_memory.md R41). -/
def isReadable (rs : List Region) (a : Nat) : Bool := rs.any (regionHolds a)

/-- MemRead(a, 1): IMEM[a], "defined only when Readable(a) holds" (20_memory.md R42). -/
def memRead (rs : List Region) (m : Memory) (a : Nat) : Option Byte :=
  if isReadable rs a then some (Memory.read m a) else none

/-- The bytes at `n` consecutive addresses from `a`, in increasing order, if all are readable (R42, R43). -/
def readBytes (rs : List Region) (m : Memory) : Nat → Nat → Option (List Byte)
  | _, 0 => some []
  | a, n + 1 =>
    match memRead rs m a with
    | none => none
    | some b =>
      match readBytes rs m (a + 1) n with
      | none => none
      | some s => some (b :: s)

end Sys2Proof.Machine
end

