-- ==== Sys2Proof/Machine/Operands.lean ====
section
/-! DEFINITION. The operand forms: the variant code of INIT and TBLRD, the buffer of WRITE. -/

namespace Sys2Proof.Machine

/-- The variant of a code V; none for the reserved code 3 (00_scope.md R2, 30_encoding.md R71). -/
def variantOf (v : BitVec 2) : Option Variant :=
  if v = 0#2 then some .crc32
  else if v = 1#2 then some .crc32Rfc1510
  else if v = 2#2 then some .crc24Rfc2440
  else none

/-- The buffer operand is null or empty (20_memory.md R41, 44_dispatch_write.md R115). -/
def emptyBuffer (addr : Address) (len : BitVec 32) : Bool := addr == 0 || len == 0

/-- The bytes of an admitted buffer (20_memory.md R43): ADDR + LEN does not pass 2^32, computed without wrap, and
every byte is readable. None for a buffer that is not admitted. -/
def admittedBytes (rs : List Region) (m : Memory) (addr : Address) (len : BitVec 32) : Option (List Byte) :=
  if addr.toNat + len.toNat ≤ Config.addressSpace then readBytes rs m addr.toNat len.toNat else none

/-- The host stored into [ADDR, ADDR + LEN) since the command's first word: it broke its duty (20_memory.md R50 (b)). -/
def bufferTouched (touched : List Address) (addr : Address) (len : BitVec 32) : Bool :=
  touched.any fun a => decide (addr.toNat ≤ a.toNat) && decide (a.toNat < addr.toNat + len.toNat)

end Sys2Proof.Machine
end

