-- ==== Sys2Proof/Machine/Flags.lean ====
section
/-! DEFINITION. The phase causes of the precheck (60_exceptions.md R141, R142) and the status word (10_state.md R27). -/

namespace Sys2Proof.Machine

/-- The phase cause of WRITE, WRB and WRW (R142). -/
def writePhaseCause : Phase → Option Cause
  | .idle => some .notInitialized
  | .active => none
  | .finalized => some .writeAfterFinal

/-- The phase cause of FINAL (R142). -/
def finalPhaseCause : Phase → Option Cause
  | .idle => some .notInitialized
  | .active => none
  | .finalized => some .finalTwice

/-- The phase cause of READ (R142). -/
def readPhaseCause : Phase → Option Cause
  | .idle => some .readBeforeFinal
  | .active => some .readBeforeFinal
  | .finalized => none

/-- DLEN (10_state.md R27, 45_variant_adapters.md R126): the output size in bytes of the bound variant, 0 in IDLE. -/
def outputSize (p : Phase) (v : Variant) : BitVec 3 :=
  match p, v with
  | .idle, _ => 0
  | _, .crc24Rfc2440 => 3
  | _, _ => 4

/-- The status word of R126, laid out as R27 says. -/
def statusWord (s : State) : Word :=
  (outputSize s.phase s.variant).setWidth 32 <<< 16 ||| (causeCode s.cause).setWidth 32 <<< 12 |||
    (errBit s.err).setWidth 32 <<< 8 ||| (variantCode s.variant).setWidth 32 <<< 2 ||| (phaseCode s.phase).setWidth 32

end Sys2Proof.Machine
end

