-- ==== Sys2Proof/Machine/Context.lean ====
section
/-! DEFINITION. The variant adapters and the context commands INIT, FINAL, READ and STAT (45_variant_adapters.md). -/

namespace Sys2Proof.Machine

/-- SEED(V): REG after INIT (R120). -/
def seed : Variant → Word
  | .crc32 => 0xFFFFFFFF#32
  | .crc32Rfc1510 => 0x00000000#32
  | .crc24Rfc2440 => 0x00CE04B7#32

/-- The finalization transform of REG (R120, R123). -/
def finalizeReg (v : Variant) (c : Word) : Word :=
  match v with
  | .crc32 => c ^^^ 0xFFFFFFFF#32
  | .crc32Rfc1510 => c
  | .crc24Rfc2440 => c &&& 0x00FFFFFF#32

/-- The output bytes of a finalized register (R120, R123; 20_memory.md R45). -/
def outputBytes (v : Variant) (c : Word) : OutBuffer :=
  match v with
  | .crc32 => beBytes c
  | .crc32Rfc1510 => beBytes c
  | .crc24Rfc2440 => leBytes c

/-- A new context bound to variant `v` (R122): OUT is not written. -/
def startContext (v : Variant) (s : State) : State :=
  { s with variant := v, backend := select s.caps s.backends v, reg := seed v, phase := .active }

/-- The context finalized (R123). -/
def finalizeContext (s : State) : State :=
  { s with
    reg := finalizeReg s.variant s.reg
    out := outputBytes s.variant (finalizeReg s.variant s.reg)
    phase := .finalized }

/-- INIT V (R122). V = 3 is BAD_VARIANT; legal in every phase. -/
def execInit (v : BitVec 2) (s : State) : StepOutcome :=
  match variantOf v with
  | none => .next (misuse .badVariant s)
  | some w => precheck none s fun s => .next ((startContext w s).respond 0 0)

/-- FINAL (R123). -/
def execFinal (s : State) : StepOutcome :=
  precheck (finalPhaseCause s.phase) s fun s => .next ((finalizeContext s).respond 0 0)

/-- READ (R125): OUT[0] in bits 31:24. -/
def execRead (s : State) : StepOutcome :=
  precheck (readPhaseCause s.phase) s fun s => .next (s.respond 0 (outWord s.out))

/-- STAT (R126): a well-formed STAT never faults and is never refused, also when ERR = 1 (R144). -/
def execStat (s : State) : StepOutcome := .next (s.respond 0 (statusWord s))

end Sys2Proof.Machine
end

