-- ==== Sys2Proof/Machine/Stream.lean ====
section
/-! DEFINITION. The commands that consume the stream: WRB through the scalar engine (42_scalar_engine.md), WRW
through the slicing engine (43_slicing_engine.md), WRITE from the input memory (44_dispatch_write.md). -/

namespace Sys2Proof.Machine

/-- REG <- c, and the command responds (0, 0). -/
def consumeInto (c : Word) (s : State) : State := State.respond { s with reg := c } 0 0

/-- WRB B (R92): BACKEND is not read. -/
def execWrb (b : Byte) (s : State) : StepOutcome :=
  precheck (writePhaseCause s.phase) s fun s => .next (consumeInto (next (familyOf s.variant) s.reg b) s)

/-- WRW DATA (R105): BACKEND is not read. -/
def execWrw (data : Word) (s : State) : StepOutcome :=
  precheck (writePhaseCause s.phase) s fun s => .next (consumeInto (next4 (familyOf s.variant) s.reg data) s)

/-- WRITE ADDR, LEN (R114): a null or empty buffer changes nothing (R115); a host that stored into the buffer
meanwhile is outside the model (20_memory.md R50 (b)); a buffer that is not admitted leaves the core stuck
(20_memory.md R43). -/
def execWrite (addr : Address) (len : BitVec 32) (s : State) : StepOutcome :=
  precheck (writePhaseCause s.phase) s fun s =>
    if emptyBuffer addr len then .next (s.respond 0 0)
    else if bufferTouched s.touched addr len then .refused .bufferChangedDuringWrite
    else
      match admittedBytes s.readable s.mem addr len with
      | none => .fault .stuckWrite
      | some bytes => .next (consumeInto (consumeBuffer s bytes) s)

end Sys2Proof.Machine
end

