-- ==== Sys2Proof/Machine/TableRead.lean ====
section
/-! DEFINITION. The table generator's command TBLRD (41_table_generator.md R87). -/

namespace Sys2Proof.Machine

/-- TBLRD V, IDX (R87): legal in every phase. V = 3 is BAD_VARIANT. -/
def execTblrd (v : BitVec 2) (idx : BitVec 10) (s : State) : StepOutcome :=
  match variantOf v with
  | none => .next (misuse .badVariant s)
  | some w => precheck none s fun s => .next (s.respond 0 (entry (familyOf w) idx.toNat))

end Sys2Proof.Machine
end

