-- ==== Sys2Proof/Machine/Dispatch.lean ====
section
/-! DEFINITION. The meaning of a command: one arm per constructor of Instr (30_encoding.md R78). -/

namespace Sys2Proof.Machine

def exec (i : Instr) (s : State) : Host.Outcome State Fault Refusal :=
  match i with
  | .init v => Sys2Proof.Machine.execInit v s
  | .write addr len => Sys2Proof.Machine.execWrite addr len s
  | .wrb b => Sys2Proof.Machine.execWrb b s
  | .wrw data => Sys2Proof.Machine.execWrw data s
  | .final => Sys2Proof.Machine.execFinal s
  | .read => Sys2Proof.Machine.execRead s
  | .tblrd v idx => Sys2Proof.Machine.execTblrd v idx s
  | .stat => Sys2Proof.Machine.execStat s

end Sys2Proof.Machine
end

