-- ==== Sys2Proof/WellFormed.lean ====
section
/-! DEFINITION. Which commands are legal command words, 30_encoding.md R72 (a): the fields' widths are in the types,
and what is left to check is that V is not the reserved code 3 (R71). -/

namespace Sys2Proof

/-- A variant code is one of 0, 1, 2 (00_scope.md R2; 3 is reserved, 30_encoding.md R71). -/
def legalVariantCode (v : BitVec 2) : Bool := v != 3#2

/-- The command is a legal command of 30_encoding.md R72 (a). An ill-formed one is R72 (b) with V = 3. -/
def Instr.wellFormed : Instr → Bool
  | .init v => legalVariantCode v
  | .write _ _ => true
  | .wrb _ => true
  | .wrw _ => true
  | .final => true
  | .read => true
  | .tblrd v _ => legalVariantCode v
  | .stat => true

end Sys2Proof
end

