-- ==== Sys2Proof/Decode.lean ====
section
/-! DEFINITION. Decoding and encoding of command words (30_encoding.md R60 to R73), and the host's numbering of a
table word. -/

namespace Sys2Proof

/-- Why a sequence of words is no command: the words rejected by name. -/
inductive DecodeError where
  /-- Not all the operand words of R61 are there: the core waits for them (R75). -/
  | incomplete
  /-- OP is 0x00 or 0x09 to 0xFF (R70). -/
  | illegalOpcode
  /-- A bit of CW that R62 marks reserved is 1 (R69). -/
  | reservedField
  deriving DecidableEq, Repr

/-- OP = CW[31:24] (R61). -/
def opcode (cw : Word) : BitVec 8 := cw.extractLsb' 24 8

/-- How many words the command that starts with `cw` has, by OP alone (R61). -/
def commandLength (cw : Word) : Nat :=
  if opcode cw = 0x02#8 then 3 else if opcode cw = 0x04#8 then 2 else 1

/-- The bits of CW from `lo` to 23 as one field: what R62 marks reserved, with `lo` the first bit above the operand fields. -/
def reservedBits (lo : Nat) (cw : Word) : BitVec (24 - lo) := cw.extractLsb' lo (24 - lo)

/-- The command `i`, if the bits of CW from `lo` to 23 are all zero (R69). -/
def ifReservedZero (lo : Nat) (cw : Word) (i : Instr) : Except DecodeError Instr :=
  if reservedBits lo cw = 0 then .ok i else .error .reservedField

/-- The command a complete run of words stands for: command word `cw`, first operand word `a`, second operand
word `b` (R62). A command without that operand does not look at it. -/
def decodeFields (cw a b : Word) : Except DecodeError Instr :=
  if opcode cw = 0x01#8 then ifReservedZero 2 cw (.init (cw.extractLsb' 0 2))
  else if opcode cw = 0x02#8 then ifReservedZero 0 cw (.write a b)
  else if opcode cw = 0x03#8 then ifReservedZero 8 cw (.wrb (cw.extractLsb' 0 8))
  else if opcode cw = 0x04#8 then ifReservedZero 0 cw (.wrw a)
  else if opcode cw = 0x05#8 then ifReservedZero 0 cw .final
  else if opcode cw = 0x06#8 then ifReservedZero 0 cw .read
  else if opcode cw = 0x07#8 then ifReservedZero 12 cw (.tblrd (cw.extractLsb' 10 2) (cw.extractLsb' 0 10))
  else if opcode cw = 0x08#8 then ifReservedZero 0 cw .stat
  else .error .illegalOpcode

/-- The first command of a sequence of words and the words after it. All operand words are collected before any
other field is looked at (R61). Total on every sequence of words (R72). -/
def decode : List Word → Except DecodeError (Instr × List Word)
  | [] => .error .incomplete
  | cw :: rest =>
    if rest.length + 1 < commandLength cw then .error .incomplete
    else
      match decodeFields cw (rest.getD 0 0) (rest.getD 1 0) with
      | .ok i => .ok (i, rest.drop (commandLength cw - 1))
      | .error e => .error e

/-- The words of a command, written from the format table of R62: OP, the reserved zeros, the fields. -/
def encode : Instr → List Word
  | .init v => [0x01000000#32 ||| v.setWidth 32]
  | .write addr len => [0x02000000#32, addr, len]
  | .wrb b => [0x03000000#32 ||| b.setWidth 32]
  | .wrw data => [0x04000000#32, data]
  | .final => [0x05000000#32]
  | .read => [0x06000000#32]
  | .tblrd v idx => [0x07000000#32 ||| v.setWidth 32 <<< 10 ||| idx.setWidth 32]
  | .stat => [0x08000000#32]

/-- The words of a table row's bits: bit 0 is bit 0 of the first word, later words count on from it, and every bit
from `nbits` up is 0. As many words as the first one's OP asks for (R61). -/
def tableWords (nbits w : Nat) : List Word :=
  let bits := w % 2 ^ nbits
  (List.range (commandLength (BitVec.ofNat 32 bits))).map fun k => BitVec.ofNat 32 (bits / 2 ^ (32 * k))

/-- The instruction the decoder reads from a table row's bits; none where it refuses. -/
def decodeTableWord (nbits w : Nat) : Option Instr :=
  match decode (tableWords nbits w) with
  | .ok (i, _) => some i
  | .error _ => none

end Sys2Proof
end

