-- ==== Sys2Proof/Machine/Port.lean ====
section
/-! DEFINITION. The command port and the host (30_encoding.md R60, R61, R75; 20_memory.md R50;
70_reset_and_hazards.md R160, R163, R170; notes/assumptions/1.md, 7.md, 8.md). -/

namespace Sys2Proof.Machine

/-- What happens next between host and core. -/
inductive PortEvent where
  /-- The host has nothing more to do: the core waits. -/
  | quiet
  /-- The host changed its memory or Readable, or pulled reset; this is the state after it. -/
  | hostActed (s : State)
  /-- The core received words: all the words of the command so far, and the state without them. -/
  | received (words : List Word) (s : State)
  deriving DecidableEq, Repr

/-- At most `n` words from the front of what the host does next, and what it does after them. -/
def takeWords : Nat → List HostAction → List Word × List HostAction
  | n + 1, .send w :: h => (w :: (takeWords n h).1, (takeWords n h).2)
  | _, h => ([], h)

/-- The core takes words from the port until the command is complete or no word is there (R61, R75). `w` is the first
of them. When it is a command's first word, the record of the host's stores starts anew. -/
def receive (w : Word) (h : List HostAction) (s : State) : PortEvent :=
  let missing := commandLength (s.rx.headD w) - s.rx.length
  let taken := takeWords missing (.send w :: h)
  .received (s.rx ++ taken.1)
    { s with rx := [], host := taken.2, touched := if s.rx.isEmpty then [] else s.touched }

/-- The host stores a byte into its memory (20_memory.md R40, R50). While a command is partly received the address is
kept, so that WRITE can tell a host that breaks its duty (R50 (b)). -/
def hostStore (addr : Address) (b : Byte) (s : State) : State :=
  { s with
    mem := Memory.write s.mem addr.toNat b
    touched := if s.rx.isEmpty then s.touched else s.touched ++ [addr] }

/-- The platform's Readable becomes these regions (70_reset_and_hazards.md R162, R170; notes/assumptions/6.md). -/
def hostSetReadable (rs : List Region) (s : State) : State := { s with readable := rs }

/-- The next event at the port. With no command in progress the two resets are one. -/
def nextEvent (s : State) : PortEvent :=
  match s.host with
  | [] => .quiet
  | .send w :: h => receive w h s
  | .store addr b :: h => .hostActed (hostStore addr b { s with host := h })
  | .setReadable rs :: h => .hostActed (hostSetReadable rs { s with host := h })
  | .reset :: h => .hostActed (coreReset { s with host := h })
  | .resetInProgress :: h => .hostActed (coreReset { s with host := h })

/-- A reset discards the command received last: the host pulls it before sending another word. -/
def discardsCommand : List HostAction → Bool
  | .resetInProgress :: _ => true
  | .store _ _ :: h => discardsCommand h
  | .setReadable _ :: h => discardsCommand h
  | .send _ :: _ => false
  | .reset :: _ => false
  | [] => false

/-- What the host does up to its next reset while the core answers nothing: its memory changes, its words are not
accepted (R163). None if it never pulls reset. -/
def untilReset : List HostAction → State → Option State
  | [], _ => none
  | .send _ :: h, s => untilReset h s
  | .store addr b :: h, s => untilReset h (hostStore addr b s)
  | .setReadable rs :: h, s => untilReset h (hostSetReadable rs s)
  | .reset :: h, s => some (coreReset { s with host := h })
  | .resetInProgress :: h, s => some (coreReset { s with host := h })

/-- The core answers nothing until the host pulls reset (R170): stuck for ever if it never does (20_memory.md R43). -/
def awaitReset (s : State) : StepOutcome :=
  match untilReset s.host s with
  | some t => .next t
  | none => .fault .stuckWrite

/-- A stuck command stops all later ones (R163) until the host pulls reset. Every other outcome stands. -/
def releaseStuck (s : State) (o : StepOutcome) : StepOutcome :=
  match o with
  | .fault .stuckWrite => awaitReset s
  | .next t => .next t
  | .refused r => .refused r

/-- The end of a complete command received in state `s` whose own outcome is `o`: discarded by a reset that comes while
it is in progress, "its partial effects are lost with the rest of the state" (R170), else `o`. -/
def finishCommand (s : State) (o : StepOutcome) : StepOutcome :=
  if discardsCommand s.host then awaitReset s else releaseStuck s o

/-- The same actions after a command that is answered: a reset that would discard it comes after its response. -/
def afterResponse : List HostAction → List HostAction
  | .resetInProgress :: h => .reset :: h
  | .store addr b :: h => .store addr b :: afterResponse h
  | .setReadable rs :: h => .setReadable rs :: afterResponse h
  | h => h

/-- A state in which the port delivers these words next, to a core that waits for a command's first word, and in which
no reset discards their command. -/
def withWords (s : State) (ws : List Word) : State :=
  { s with rx := [], host := ws.map HostAction.send ++ afterResponse s.host }

end Sys2Proof.Machine
end

