-- ==== Sys2Proof/Machine/Run.lean ====
section
/-! DEFINITION. What the core does with the words it received: wait, run the command, or take the decoding fault. -/

namespace Sys2Proof.Machine

/-- The misuse of words that are no command (30_encoding.md R69, R70); none while operand words are missing. -/
def decodeCause : DecodeError → Option Cause
  | .incomplete => none
  | .illegalOpcode => some .illegalOpcode
  | .reservedField => some .reservedField

/-- The core acts on the words of the command so far: it keeps them and waits if some are missing (30_encoding.md
R75), refuses or faults if they are no command (60_exceptions.md R142), else runs the command. A reset may discard what is
complete (`finishCommand`). -/
def runWords (words : List Word) (s : State) : StepOutcome :=
  match decode words with
  | .error e =>
    match decodeCause e with
    | none => .next { s with rx := words }
    | some k => finishCommand s (.next (misuse k s))
  | .ok (i, _) => finishCommand s (exec i s)

end Sys2Proof.Machine
end

