-- ==== Sys2Proof/Machine/Step.lean ====
section
/-! DEFINITION. One step: the next thing that happens between host and core, a whole command where one is complete
(70_reset_and_hazards.md R163). -/

namespace Sys2Proof.Machine

/-- One step. A core with nothing at its port waits (30_encoding.md R75, 60_exceptions.md R152): the state stays. -/
def step (s : State) : Host.Outcome State Fault Refusal :=
  match nextEvent s with
  | .quiet => .next s
  | .hostActed t => .next t
  | .received words t => runWords words t

/-- The state whose next step runs the command with the table bits `w` (notes/assumptions/13.md): its words stand at
the front of the port, and the core waits for a command's first word. -/
def State.withFetchWord (s : State) (nbits w : Nat) : State := withWords s (tableWords nbits w)

end Sys2Proof.Machine
end

