-- ==== Sys2Proof/Machine/Assembler.lean ====
section
/-! DEFINITION. The assembler of 30_encoding.md R76 and the pseudo-instructions of R77: from lines of text to the words
the host sends. It is no part of the core; it says which words a line stands for. -/

namespace Sys2Proof.Machine

/-- One line of R76, its numbers as written: a number need not fit its field. -/
inductive AsmLine where
  | init (v : Nat)
  | write (addr len : Nat)
  | wrb (b : Nat)
  | wrw (w : Nat)
  | final
  | read
  | tblrd (v idx : Nat)
  /-- `tblrd VNAME, SLICE:BYTE`. -/
  | tblrdSlice (v slice byte : Nat)
  | stat
  /-- `.word VALUE`. -/
  | word (n : Nat)
  /-- `digest VNAME, ADDR, LEN` (R77). -/
  | digest (v addr len : Nat)
  /-- `wrbytes b0, b1, ...` (R77). -/
  | wrbytes (bs : List Nat)
  deriving DecidableEq, Repr

/-- A value as a field of `width` bits; none if it does not fit: "an assembly error, never a silent truncation" (R76). -/
def fitField (width n : Nat) : Option (BitVec width) := if n < 2 ^ width then some (BitVec.ofNat width n) else none

/-- VNAME as a variant code: one of 0, 1, 2 (R76). -/
def fitVariant (n : Nat) : Option (BitVec 2) := if n < 3 then some (BitVec.ofNat 2 n) else none

/-- The expansion of `digest` (R77). -/
def digestCommands (v : BitVec 2) (addr : Address) (len : BitVec 32) : List Instr :=
  [.init v, .write addr len, .final, .read]

/-- The expansion of `wrbytes` (R77): one WRW per whole group of four bytes, then one WRB per remaining byte. -/
def wrbytesCommands : List Byte → List Instr
  | b0 :: b1 :: b2 :: b3 :: s => .wrw (le32 b0 b1 b2 b3) :: wrbytesCommands s
  | s => s.map .wrb

/-- The commands a line stands for; none for an assembly error. `.word` stands for no command. -/
def asmCommands : AsmLine → Option (List Instr)
  | .init v => (fitVariant v).map fun v => [.init v]
  | .write a l => (fitField 32 a).bind fun a => (fitField 32 l).map fun l => [.write a l]
  | .wrb b => (fitField 8 b).map fun b => [.wrb b]
  | .wrw w => (fitField 32 w).map fun w => [.wrw w]
  | .final => some [.final]
  | .read => some [.read]
  | .tblrd v idx => (fitVariant v).bind fun v => (fitField 10 idx).map fun idx => [.tblrd v idx]
  | .tblrdSlice v k b =>
    (fitVariant v).bind fun v => (fitField 2 k).bind fun k => (fitField 8 b).map fun b => [.tblrd v (k ++ b)]
  | .stat => some [.stat]
  | .word _ => none
  | .digest v a l =>
    (fitVariant v).bind fun v => (fitField 32 a).bind fun a => (fitField 32 l).map fun l => digestCommands v a l
  | .wrbytes bs => (bs.mapM (fitField 8)).map wrbytesCommands

/-- The words a line emits (R76); none for an assembly error. -/
def asmWords : AsmLine → Option (List Word)
  | .word n => (fitField 32 n).map fun w => [w]
  | l => (asmCommands l).map fun is => is.flatMap encode

/-- A blank of a line. -/
def isBlank (c : Char) : Bool := c == ' ' || c == '\t' || c == '\r'

/-- The line without its comment. -/
def dropComment (cs : List Char) : List Char := cs.takeWhile (· != ';')

/-- The text without blanks at either end. -/
def trimBlanks (cs : List Char) : List Char := ((cs.dropWhile isBlank).reverse.dropWhile isBlank).reverse

/-- The pieces of a text between the characters `sep`. -/
def splitAt (sep : Char) : List Char → List (List Char)
  | [] => [[]]
  | c :: cs =>
    if c == sep then [] :: splitAt sep cs
    else
      match splitAt sep cs with
      | p :: ps => (c :: p) :: ps
      | [] => [[c]]

/-- The value of a digit in a base up to 16. -/
def digitValue (base : Nat) (c : Char) : Option Nat :=
  let d :=
    if 48 ≤ c.toNat ∧ c.toNat ≤ 57 then c.toNat - 48
    else if 97 ≤ c.toNat ∧ c.toNat ≤ 102 then c.toNat - 87
    else if 65 ≤ c.toNat ∧ c.toNat ≤ 70 then c.toNat - 55
    else 16
  if d < base then some d else none

/-- The value of a run of digits that follow the value `acc`. -/
def digitsValue (base : Nat) : Nat → List Char → Option Nat
  | acc, [] => some acc
  | acc, c :: cs =>
    match digitValue base c with
    | some d => digitsValue base (acc * base + d) cs
    | none => none

/-- A number: decimal, or hexadecimal after `0x` (R76). -/
def numberOf : List Char → Option Nat
  | [] => none
  | ['0', 'x'] => none
  | '0' :: 'x' :: cs => digitsValue 16 0 cs
  | cs => digitsValue 10 0 cs

/-- VNAME: a name of R76 or a number. -/
def variantName (cs : List Char) : Option Nat :=
  if cs = ['c', 'r', 'c', '3', '2'] then some 0
  else if cs = ['c', 'r', 'c', '3', '2', 'r', 'f', 'c', '1', '5', '1', '0'] then some 1
  else if cs = ['c', 'r', 'c', '2', '4', 'r', 'f', 'c', '2', '4', '4', '0'] then some 2
  else numberOf cs

/-- The index operand of `tblrd`: IDX, or SLICE:BYTE (R76). -/
def tblrdLine (v : Nat) (cs : List Char) : Option AsmLine :=
  match (splitAt ':' cs).map trimBlanks with
  | [i] => (numberOf i).map fun i => .tblrd v i
  | [k, b] => (numberOf k).bind fun k => (numberOf b).map fun b => .tblrdSlice v k b
  | _ => none

/-- The line of a mnemonic with its operands (R76, R77). -/
def lineOf (mnemonic : List Char) (ops : List (List Char)) : Option AsmLine :=
  if mnemonic = ['w', 'r', 'b', 'y', 't', 'e', 's'] then (ops.mapM numberOf).map .wrbytes
  else
    match mnemonic, ops with
    | ['i', 'n', 'i', 't'], [v] => (variantName v).map .init
    | ['w', 'r', 'i', 't', 'e'], [a, l] => (numberOf a).bind fun a => (numberOf l).map fun l => .write a l
    | ['w', 'r', 'b'], [b] => (numberOf b).map .wrb
    | ['w', 'r', 'w'], [w] => (numberOf w).map .wrw
    | ['f', 'i', 'n', 'a', 'l'], [] => some .final
    | ['r', 'e', 'a', 'd'], [] => some .read
    | ['t', 'b', 'l', 'r', 'd'], [v, i] => (variantName v).bind fun v => tblrdLine v i
    | ['s', 't', 'a', 't'], [] => some .stat
    | ['.', 'w', 'o', 'r', 'd'], [n] => (numberOf n).map .word
    | ['d', 'i', 'g', 'e', 's', 't'], [v, a, l] =>
      (variantName v).bind fun v => (numberOf a).bind fun a => (numberOf l).map fun l => .digest v a l
    | _, _ => none

/-- The operands of a line: separated by commas, none if nothing is written (R76). -/
def operandsOf (cs : List Char) : List (List Char) :=
  match trimBlanks cs with
  | [] => []
  | cs => (splitAt ',' cs).map trimBlanks

/-- The words of one line of text (R76): none for an assembly error, no word for an empty line or a comment. -/
def assembleLine (text : List Char) : Option (List Word) :=
  match trimBlanks (dropComment text) with
  | [] => some []
  | cs => (lineOf (cs.takeWhile (!isBlank ·)) (operandsOf (cs.dropWhile (!isBlank ·)))).bind asmWords

/-- The words of a text, one command per line (R76). -/
def assemble (text : List Char) : Option (List Word) :=
  ((splitAt '\n' text).mapM assembleLine).map List.flatten

end Sys2Proof.Machine
end

