-- ==== Sys2Proof/Safety.lean ====
section
/-! DEFINITION. The terms claims are stated in: the end of a run (70_reset_and_hazards.md R168), the precheck and the
lifecycle table as the spec writes them (60_exceptions.md R142, 45_variant_adapters.md R127), the published value
(R124), the CRC-24 representation (R121), the source's slicing form (R101), and the invariant of the machine. -/

namespace Sys2Proof.Machine

/-- The run is completed (R168 (a)): the host has nothing more to do, and the core waits for a command's first word. -/
def State.completed (s : State) : Prop := s.host = [] ∧ s.rx = []

/-- The run is clean (R168): completed, with ERR = 0. -/
def State.clean (s : State) : Prop := s.completed ∧ s.err = false

/-- The state with one response more. -/
def State.answered (s : State) (rstat : BitVec 1) (rdata : Word) : State :=
  { s with responses := s.responses ++ [{ rstat := rstat, rdata := rdata }] }

/-- The state after a misuse fault with cause `k` (R140). -/
def State.faulted (s : State) (k : Cause) : State :=
  { s with err := true, cause := k, responses := s.responses ++ [{ rstat := 1, rdata := 0 }] }

/-- A bit of CW that the format table of 30_encoding.md R62 marks reserved is 1: CW[23:2] of INIT, CW[23:8] of WRB,
CW[23:12] of TBLRD, CW[23:0] of the others. -/
abbrev reservedNonzero (cw : Word) : Prop :=
  if opcode cw = 0x01#8 then cw.extractLsb' 2 22 ≠ 0
  else if opcode cw = 0x03#8 then cw.extractLsb' 8 16 ≠ 0
  else if opcode cw = 0x07#8 then cw.extractLsb' 12 12 ≠ 0
  else cw.extractLsb' 0 24 ≠ 0

/-- OP is one of 0x01 to 0x08 (R70, R78). -/
abbrev assignedOpcode (cw : Word) : Prop := 1 ≤ (opcode cw).toNat ∧ (opcode cw).toNat ≤ 8

/-- The command word of an INIT or a TBLRD with V = 3 (R71). -/
abbrev reservedVariantWord (cw : Word) : Prop :=
  (opcode cw = 0x01#8 ∧ cw.extractLsb' 0 2 = 3) ∨
    (opcode cw = 0x07#8 ∧ cw.extractLsb' 10 2 = 3)

/-- What the precheck decides on a command word. -/
inductive Verdict where
  | refused
  | fault (k : Cause)
  | runs
  deriving DecidableEq, Repr

/-- The precheck of R142, line by line: the first line that applies decides (R143). -/
def precheckVerdict (cw : Word) (phase : Phase) (err : Bool) : Verdict :=
  if err = true ∧ ¬ (opcode cw = 0x08#8 ∧ cw.extractLsb' 0 24 = 0) then .refused
  else if ¬ assignedOpcode cw then .fault .illegalOpcode
  else if reservedNonzero cw then .fault .reservedField
  else if reservedVariantWord cw then .fault .badVariant
  else if 0x02#8 ≤ opcode cw ∧ opcode cw ≤ 0x05#8 ∧ phase = .idle then .fault .notInitialized
  else if 0x02#8 ≤ opcode cw ∧ opcode cw ≤ 0x04#8 ∧ phase = .finalized then .fault .writeAfterFinal
  else if opcode cw = 0x05#8 ∧ phase = .finalized then .fault .finalTwice
  else if opcode cw = 0x06#8 ∧ phase ≠ .finalized then .fault .readBeforeFinal
  else .runs

/-- A cell of the lifecycle table (45_variant_adapters.md R127) for ERR = 0. -/
inductive Cell where
  /-- ok, no state change. -/
  | unchanged
  /-- ok, and the phase is this one afterwards. -/
  | goesTo (p : Phase)
  | fault (k : Cause)
  deriving DecidableEq, Repr

/-- The lifecycle table (R127): the cell of a well-formed command in a phase. -/
def lifecycle : Instr → Phase → Cell
  | .init _, _ => .goesTo .active
  | .write _ _, .idle | .wrb _, .idle | .wrw _, .idle => .fault .notInitialized
  | .write _ _, .active | .wrb _, .active | .wrw _, .active => .goesTo .active
  | .write _ _, .finalized | .wrb _, .finalized | .wrw _, .finalized => .fault .writeAfterFinal
  | .final, .idle => .fault .notInitialized
  | .final, .active => .goesTo .finalized
  | .final, .finalized => .fault .finalTwice
  | .read, .idle | .read, .active => .fault .readBeforeFinal
  | .read, .finalized => .unchanged
  | .tblrd _ _, _ => .unchanged
  | .stat, _ => .unchanged

/-- The first `n` bytes of OUT read most significant byte first (R124). -/
def leadingBytes (n : Nat) (o : OutBuffer) : Word :=
  ([o.b0, o.b1, o.b2, o.b3].take n).foldl (fun p b => p <<< 8 ||| b.setWidth 32) 0

/-- The published checksum value P (R124): the first DLEN bytes of OUT, most significant byte first. -/
def publishedValue (v : Variant) (o : OutBuffer) : Word :=
  match v with
  | .crc24Rfc2440 => leadingBytes 3 o
  | _ => leadingBytes 4 o

/-- The conceptual CRC-24 register C of a register value (R121). -/
def conceptual (c : Word) : Word := bswap32 c >>> 8

/-- t24[i], the 24-bit non-reflected table entry (R121). -/
def conceptualEntry (i : Byte) : Word := bswap32 (entry .f24 i.toNat) >>> 8

/-- next4_src24 (43_slicing_engine.md R101): the last term from the input word, not from the XORed value. -/
def next4Src24 (t : Family) (c w : Word) : Word :=
  entry t ((byteAt 0 (c ^^^ w)).toNat + 768) ^^^ entry t ((byteAt 1 (c ^^^ w)).toNat + 512) ^^^
    entry t ((byteAt 2 (c ^^^ w)).toNat + 256) ^^^ entry t (byteAt 3 w).toNat

/-- The command consumes stream bytes (R104). -/
def isStream : Instr → Bool
  | .write _ _ | .wrb _ | .wrw _ => true
  | .init _ | .final | .read | .tblrd _ _ | .stat => false

/-- The stream bytes a command consumes from a memory (R92, R105, R114). -/
def streamBytes (rs : List Region) (m : Memory) : Instr → List Byte
  | .wrb b => [b]
  | .wrw d => [byteAt 0 d, byteAt 1 d, byteAt 2 d, byteAt 3 d]
  | .write addr len => if emptyBuffer addr len then [] else (admittedBytes rs m addr len).getD []
  | .init _ | .final | .read | .tblrd _ _ | .stat => []

/-- Commands one after the other (R163), up to the first that does not answer a next state. -/
def execAll : List Instr → State → StepOutcome
  | [], s => .next s
  | i :: is, s =>
    match exec i s with
    | .next t => execAll is t
    | .fault f => .fault f
    | .refused r => .refused r

/-- The buffer [ADDR, ADDR + LEN) holds these bytes, all readable, and does not pass 2^32 (20_memory.md R43). -/
def holdsBytes (rs : List Region) (m : Memory) (addr : Address) (len : BitVec 32) (bytes : List Byte) : Prop :=
  addr.toNat + len.toNat ≤ 2 ^ 32 ∧ bytes.length = len.toNat ∧
    ∀ i, (h : i < bytes.length) → memRead rs m (addr.toNat + i) = some bytes[i]

/-- The host has kept its duty towards the buffer [ADDR, ADDR + LEN) (20_memory.md R50 (b)). -/
def untouched (s : State) (addr : Address) (len : BitVec 32) : Prop :=
  ∀ a ∈ s.touched, ¬ (addr.toNat ≤ a.toNat ∧ a.toNat < addr.toNat + len.toNat)

/-- The input memory after the stores among these actions of the host. -/
def memoryAfter (h : List HostAction) (m : Memory) : Memory :=
  h.foldl (fun m a =>
    match a with
    | .store x b => Memory.write m x.toNat b
    | .send _ | .setReadable _ | .reset | .resetInProgress => m) m

/-- Readable after the changes of it among these actions. -/
def readableAfter (h : List HostAction) (rs : List Region) : List Region :=
  h.foldl (fun rs a =>
    match a with
    | .setReadable r => r
    | .send _ | .store _ _ | .reset | .resetInProgress => rs) rs

/-- The next step pulls reset: it is the host's next action, or it discards the command whose words come next
(70_reset_and_hazards.md R170). -/
def resetDue (s : State) : Prop :=
  (∃ h, s.host = .reset :: h ∨ s.host = .resetInProgress :: h) ∨
    ∃ ws h, ws ≠ [] ∧ s.host = ws.map HostAction.send ++ h ∧
      (s.rx ++ ws).length = commandLength ((s.rx ++ ws).headD 0) ∧ discardsCommand h = true

/-- The invariant of the machine. -/
structure State.Inv (s : State) : Prop where
  /-- The input memory is in canonical form. -/
  mem_wf : Memory.wf s.mem = true
  /-- VARIANT is 0 and BACKEND is NONE while no context is bound (10_state.md R27, R32). -/
  idle : s.phase = .idle → s.variant = .crc32 ∧ s.backend = .none
  /-- BACKEND is the one INIT selected (44_dispatch_write.md R111, R112). -/
  backend_selected : s.phase ≠ .idle → s.backend = select s.caps s.backends s.variant
  /-- REG[31:24] = 0 in a CRC-24 context (45_variant_adapters.md R128). -/
  top_byte : s.variant = .crc24Rfc2440 → s.phase ≠ .idle → s.reg.extractLsb' 24 8 = 0
  /-- OUT holds the bytes FINAL made of REG (45_variant_adapters.md R123). -/
  out_of_reg : s.phase = .finalized → s.out = outputBytes s.variant s.reg
  /-- CAUSE is 0 exactly while ERR = 0 (10_state.md R27). -/
  cause_of_err : s.err = false ↔ s.cause = .none
  /-- The words kept of a command are fewer than it has (30_encoding.md R61, R75). -/
  partial_command : ∀ cw ops, s.rx = cw :: ops → ops.length + 1 < commandLength cw

end Sys2Proof.Machine
end

