-- ==== Sys2Proof/Certificates/Slice0/Obligations.lean ====
section
/-! DEFINITION. The statements about the machine. Each docstring names the rule it formalises. -/

open Sys2Proof Sys2Proof.Machine

/-! ## Encoding -/

/-- 30_encoding.md R62 to R69: every command, with every operand at every value, is what its words decode to, whatever
words follow. -/
def Obligations.DecodeOfEncode : Prop :=
  ∀ (i : Instr) (rest : List Word), decode (encode i ++ rest) = .ok (i, rest)

/-- 30_encoding.md R62, R72: words that decode to a command are the words of that command and no others. -/
def Obligations.EncodeOfDecode : Prop :=
  ∀ (ws : List Word) (i : Instr) (rest : List Word), decode ws = .ok (i, rest) → ws = encode i ++ rest

/-- 30_encoding.md R72: with its operand words there, every word is exactly one of the three kinds. -/
def Obligations.EveryWordIsOneKind : Prop :=
  ∀ (cw : Word) (ops : List Word), ops.length + 1 = commandLength cw →
    let reserved := reservedNonzero cw
    let a := assignedOpcode cw ∧ ¬ reserved ∧ ¬ reservedVariantWord cw ∧
      ∃ i, decode (cw :: ops) = .ok (i, []) ∧ i.wellFormed = true
    let b := assignedOpcode cw ∧
      ((reserved ∧ decode (cw :: ops) = .error .reservedField) ∨
        (¬ reserved ∧ reservedVariantWord cw ∧ ∃ i, decode (cw :: ops) = .ok (i, []) ∧ i.wellFormed = false))
    let c := ¬ assignedOpcode cw ∧ decode (cw :: ops) = .error .illegalOpcode
    (a ∧ ¬ b ∧ ¬ c) ∨ (¬ a ∧ b ∧ ¬ c) ∨ (¬ a ∧ ¬ b ∧ c)

/-- Words written out from the format table of 30_encoding.md R62 (95_test_vectors.md V2.5, V3.12, V4.11, V5.10, V6.4,
V6.7, V6.9, V6.1), one for each command. -/
def Obligations.SpecWordsDecode : Prop :=
  decode [0x01000002] = .ok (.init 2, []) ∧
  decode [0x02000000, 0x00003001, 0x00000015] = .ok (.write 0x3001 21, []) ∧
  decode [0x03000031] = .ok (.wrb 0x31, []) ∧
  decode [0x04000000, 0x34333231] = .ok (.wrw 0x34333231, []) ∧
  decode [0x05000000] = .ok (.final, []) ∧
  decode [0x06000000] = .ok (.read, []) ∧
  decode [0x07000BFF] = .ok (.tblrd 2 1023, []) ∧
  decode [0x08000000] = .ok (.stat, [])

/-! ## The port and the step -/

/-- 70_reset_and_hazards.md R163, R170: when the words at the port decode to a command, the step is `exec` of it, at the
state with those words taken, unless a reset discards the command in progress or it is a stuck WRITE
(`finishCommand`). -/
def Obligations.StepRunsTheDecodedCommand : Prop :=
  ∀ (s : State) (ws : List Word) (i : Instr) (h : List HostAction),
    decode ws = .ok (i, []) → s.rx = [] → s.host = ws.map HostAction.send ++ h →
      step s = finishCommand { s with host := h, touched := [] } (exec i { s with host := h, touched := [] }) ∧
      (discardsCommand h = false → exec i { s with host := h, touched := [] } ≠ .fault .stuckWrite →
        step s = exec i { s with host := h, touched := [] })

/-- 30_encoding.md sections 1, 3 and 5, 60_exceptions.md section 5: a command whose words have not all arrived is kept and
nothing else happens, and the words that complete it, in however many pieces they arrive, run it, or are the misuse
their decoding is, unless a reset discards it (`finishCommand`). That a core with nothing at its port stays in its state
is the model's choice (notes/assumptions/10.md), and so is the record of stores `touched` (notes/assumptions/8.md). -/
def Obligations.PartialCommandWaits : Prop :=
  (∀ s : State, s.host = [] → step s = .next s) ∧
  ∀ (s : State) (cw : Word) (ops ws : List Word), ws ≠ [] → s.rx ++ ws = cw :: ops →
    (∀ h, ops.length + 1 < commandLength cw → s.host = ws.map HostAction.send ++ h →
      (∀ w h', h ≠ HostAction.send w :: h') →
        step s = .next { s with
          rx := cw :: ops, host := h, touched := if s.rx = [] then [] else s.touched }) ∧
    (∀ h, ops.length + 1 = commandLength cw → s.host = ws.map HostAction.send ++ h →
      let t := { s with rx := [], host := h, touched := if s.rx = [] then [] else s.touched }
      (∀ i, decode (cw :: ops) = .ok (i, []) → step s = finishCommand t (exec i t)) ∧
      (∀ e k, decode (cw :: ops) = .error e → decodeCause e = some k →
        step s = finishCommand t (.next (misuse k t))))

/-- 70_reset_and_hazards.md sections 3 to 5 (R163, R167, R168): commands the host has sent run one after the other, one
a step, each seeing the effects of those before; a run whose commands are not stuck completes. -/
def Obligations.QueuedCommandsRunInOrder : Prop :=
  ∀ (is : List Instr) (s t : State), s.rx = [] → s.touched = [] → s.host = [] → execAll is s = .next t →
    Host.Core.run Sys2Proof.core is.length { s with host := (is.flatMap encode).map HostAction.send } = .next t ∧
      t.completed

/-- 60_exceptions.md R140, R142, R143: what the step does with any complete run of command words is what the precheck,
read line by line, decides, if no reset discards the command (ResetDiscardsCommand). -/
def Obligations.PrecheckInOrder : Prop :=
  ∀ (s : State) (cw : Word) (ops : List Word) (h : List HostAction),
    ops.length + 1 = commandLength cw → s.rx = [] → s.host = (cw :: ops).map HostAction.send ++ h →
    discardsCommand h = false →
      let t := { s with host := h, touched := [] }
      match precheckVerdict cw s.phase s.err with
      | .refused => step s = .next (t.answered 1 0)
      | .fault k => step s = .next (t.faulted k)
      | .runs => ∃ i, decode (cw :: ops) = .ok (i, []) ∧ i.wellFormed = true ∧ step s = releaseStuck t (exec i t) ∧
          ∀ u, exec i t = .next u → u.err = s.err ∧ u.cause = s.cause ∧ ∃ d, u.responses = s.responses ++ [⟨0, d⟩]

/-- 30_encoding.md R70: a reserved opcode is one word long and faults ILLEGAL_OPCODE, if no reset discards it; the
all-zero word is one. -/
def Obligations.ReservedOpcodeFaults : Prop :=
  (∀ (s : State) (cw : Word) (h : List HostAction),
    opcode cw = 0x00#8 ∨ 0x09#8 ≤ opcode cw → s.rx = [] → s.err = false → s.host = .send cw :: h →
    discardsCommand h = false →
      step s = .next { s with
        host := h, touched := [], err := true, cause := .illegalOpcode, responses := s.responses ++ [⟨1, 0⟩] }) ∧
  opcode 0x00000000#32 = 0x00#8

/-- 30_encoding.md section 3: a reserved bit that is not zero faults RESERVED_FIELD, after all the operand words are
taken, if no reset discards the command. -/
def Obligations.ReservedFieldFaults : Prop :=
  ∀ (s : State) (cw : Word) (ops : List Word) (h : List HostAction),
    assignedOpcode cw → reservedNonzero cw → ops.length + 1 = commandLength cw → s.rx = [] →
      s.err = false → s.host = (cw :: ops).map HostAction.send ++ h → discardsCommand h = false →
        step s = .next { s with
          host := h, touched := [], err := true, cause := .reservedField, responses := s.responses ++ [⟨1, 0⟩] }

/-- 60_exceptions.md R144: while ERR = 1 every command but a well-formed STAT takes its words, answers (1, 0) and
changes nothing; a well-formed STAT answers the status word. If no reset discards the command. -/
def Obligations.StickyErrorRefuses : Prop :=
  ∀ (s : State) (cw : Word) (ops : List Word) (h : List HostAction),
    ops.length + 1 = commandLength cw → s.rx = [] → s.err = true →
      s.host = (cw :: ops).map HostAction.send ++ h → discardsCommand h = false →
        (¬ cw = 0x08000000#32 →
          step s = .next { s with host := h, touched := [], responses := s.responses ++ [⟨1, 0⟩] }) ∧
        (cw = 0x08000000#32 →
          step s = .next { s with host := h, touched := [], responses := s.responses ++ [⟨0, statusWord s⟩] })

/-- 60_exceptions.md R146: no step clears ERR or overwrites CAUSE but one that pulls reset, no command does, and a reset
does, whether it is the host's next action or discards the command whose words come next. -/
def Obligations.OnlyResetClearsError : Prop :=
  (∀ s t : State, step s = .next t → s.err = true → ¬ resetDue s → t.err = true ∧ t.cause = s.cause) ∧
  (∀ (i : Instr) (s t : State), exec i s = .next t → s.err = true → t.err = true ∧ t.cause = s.cause) ∧
  (∀ s : State, resetDue s → ∃ t, step s = .next t ∧ t.err = false ∧ t.cause = .none)

/-! ## The lifecycle -/

/-- 30_encoding.md R71: V = 3 faults BAD_VARIANT in INIT and in TBLRD. -/
def Obligations.ReservedVariantFaults : Prop :=
  ∀ (s : State) (idx : BitVec 10), s.err = false →
    exec (.init 3) s =
      .next { s with err := true, cause := .badVariant, responses := s.responses ++ [⟨1, 0⟩] } ∧
    exec (.tblrd 3 idx) s =
      .next { s with err := true, cause := .badVariant, responses := s.responses ++ [⟨1, 0⟩] }

/-- 45_variant_adapters.md R127: the lifecycle table, cell by cell. -/
def Obligations.LifecycleTable : Prop :=
  ∀ (i : Instr) (s : State), i.wellFormed = true →
    (s.err = false →
      match lifecycle i s.phase with
      | .fault k => exec i s = .next (s.faulted k)
      | .unchanged => ∃ d, exec i s = .next (s.answered 0 d)
      | .goesTo p => ∀ t, exec i s = .next t →
          t.phase = p ∧ t.err = false ∧ t.cause = s.cause ∧ ∃ d, t.responses = s.responses ++ [⟨0, d⟩]) ∧
    (s.err = true →
      (i ≠ .stat → exec i s = .next (s.answered 1 0)) ∧
      (i = .stat → ∃ d, exec i s = .next (s.answered 0 d)))

/-- 70_reset_and_hazards.md R161: right after reset only INIT, TBLRD and STAT succeed. -/
def Obligations.AfterResetOnlyThreeSucceed : Prop :=
  ∀ (s : State) (i : Instr), i.wellFormed = true →
    let r := coreReset s
    match i with
    | .init _ => ∃ t, exec i r = .next t ∧ t.err = false ∧ t.responses = s.responses ++ [⟨0, 0⟩]
    | .tblrd _ _ => ∃ d, exec i r = .next (r.answered 0 d)
    | .stat => ∃ d, exec i r = .next (r.answered 0 d)
    | .write _ _ => exec i r = .next (r.faulted .notInitialized)
    | .wrb _ => exec i r = .next (r.faulted .notInitialized)
    | .wrw _ => exec i r = .next (r.faulted .notInitialized)
    | .final => exec i r = .next (r.faulted .notInitialized)
    | .read => exec i r = .next (r.faulted .readBeforeFinal)

/-- 70_reset_and_hazards.md sections 1 and 6, 10_state.md section 7: what reset leaves, for the elements the spec gives a
value; the parameters, the host's memory, Readable and its next actions stay. That the responses already sent stay is
the model's choice (notes/assumptions/15.md). -/
def Obligations.HostResetLeaves : Prop :=
  (∀ (s : State) (h : List HostAction), s.host = .reset :: h ∨ s.host = .resetInProgress :: h →
    ∃ t, step s = .next t ∧ t.phase = .idle ∧ t.variant = .crc32 ∧ t.backend = .none ∧ t.err = false ∧
      t.cause = .none ∧ t.rx = [] ∧ t.host = h ∧ t.mem = s.mem ∧ t.readable = s.readable ∧ t.caps = s.caps ∧
      t.backends = s.backends ∧ t.responses = s.responses) ∧
  State.reset.phase = .idle ∧ State.reset.variant = .crc32 ∧ State.reset.backend = .none ∧
  State.reset.err = false ∧ State.reset.cause = .none ∧ State.reset.rx = []

/-- 30_encoding.md R74: every command that answers a next state sends exactly one response, (1, 0) for a fault or a
refusal, and (0, RDATA) with the data its rule gives, else 0. -/
def Obligations.OneResponsePerCommand : Prop :=
  ∀ (i : Instr) (s t : State), exec i s = .next t →
    (t.responses = s.responses ++ [⟨1, 0⟩] ∧ (s.err = true ∨ t.err = true)) ∨
    (t.err = s.err ∧ t.responses = s.responses ++ [⟨0,
      match i with
      | .read => s.out.b0.setWidth 32 <<< 24 ||| s.out.b1.setWidth 32 <<< 16 ||| s.out.b2.setWidth 32 <<< 8 |||
          s.out.b3.setWidth 32
      | .tblrd v idx => entry (if v = 2 then .f24 else .f32) idx.toNat
      | .stat => statusWord s
      | .init _ => 0
      | .write _ _ => 0
      | .wrb _ => 0
      | .wrw _ => 0
      | .final => 0⟩])

/-- 10_state.md section 1 (the "written by" column of R20), 20_memory.md section 1: which commands write which element.
Every byte of the input memory reads as before, and Readable stays. -/
def Obligations.FrameOfEveryCommand : Prop :=
  ∀ (i : Instr) (s t : State), exec i s = .next t →
    (isStream i = false → (∀ v, i ≠ .init v) → i ≠ .final → t.reg = s.reg) ∧
    ((∀ v, i ≠ .init v) → i ≠ .final → t.phase = s.phase) ∧
    ((∀ v, i ≠ .init v) → t.variant = s.variant ∧ t.backend = s.backend) ∧
    (i ≠ .final → t.out = s.out) ∧
    (¬ t.responses = s.responses ++ [⟨1, 0⟩] → t.err = s.err ∧ t.cause = s.cause) ∧
    (t.responses = s.responses ++ [⟨1, 0⟩] →
      t.reg = s.reg ∧ t.phase = s.phase ∧ t.variant = s.variant ∧ t.backend = s.backend ∧ t.out = s.out) ∧
    (∀ a, Memory.read t.mem a = Memory.read s.mem a) ∧ t.readable = s.readable ∧
    t.caps = s.caps ∧ t.backends = s.backends ∧ t.rx = s.rx ∧ t.host = s.host ∧ t.touched = s.touched

/-- 60_exceptions.md section 2 (R147): of all commands only WRITE can stop the machine, and only where it would read
its buffer. -/
def Obligations.OnlyWriteStops : Prop :=
  ∀ (i : Instr) (s : State), (∀ t, exec i s ≠ .next t) →
    ∃ addr len, i = .write addr len ∧ addr ≠ 0 ∧ len ≠ 0 ∧ s.err = false ∧ s.phase = .active ∧
      (exec i s = .fault .stuckWrite ∨ (exec i s = .refused .bufferChangedDuringWrite ∧ ¬ untouched s addr len))

/-! ## INIT, FINAL, READ, STAT, TBLRD -/

/-- 45_variant_adapters.md section 2, INIT, with the seeds of section 1: the whole next state. -/
def Obligations.InitStartsContext : Prop :=
  ∀ s : State, s.err = false →
    exec (.init 0) s = .next { s with
      variant := .crc32, backend := select s.caps s.backends .crc32, reg := 0xFFFFFFFF#32, phase := .active
      responses := s.responses ++ [⟨0, 0⟩] } ∧
    exec (.init 1) s = .next { s with
      variant := .crc32Rfc1510, backend := select s.caps s.backends .crc32Rfc1510, reg := 0x00000000#32
      phase := .active, responses := s.responses ++ [⟨0, 0⟩] } ∧
    exec (.init 2) s = .next { s with
      variant := .crc24Rfc2440, backend := select s.caps s.backends .crc24Rfc2440, reg := 0x00CE04B7#32
      phase := .active, responses := s.responses ++ [⟨0, 0⟩] }

/-- 44_dispatch_write.md R111: the selected backend is the least index whose entry serves the family, is compiled in
and has all its required flags in CAPS; NONE if there is none. INIT of a variant records it. -/
def Obligations.SelectionIsLeastQualifying : Prop :=
  ∀ (caps : Nat) (bs : List BackendEntry) (v : Variant),
    let q := fun b : BackendEntry =>
      b.family = (match v with | .crc32 => .f32 | .crc32Rfc1510 => .f32 | .crc24Rfc2440 => .f24) ∧
        b.compiled = true ∧ ∀ f, b.required.testBit f = true → caps.testBit f = true
    (∀ k, select caps bs v = .accel k ↔
      (∃ b, bs[k]? = some b ∧ q b) ∧ ∀ j, j < k → ∀ b, bs[j]? = some b → ¬ q b) ∧
    (select caps bs v = .none ↔ ∀ b ∈ bs, ¬ q b) ∧
    (∀ (s t : State) (c : BitVec 2), s.err = false → variantOf c = some v → s.caps = caps → s.backends = bs →
      exec (.init c) s = .next t → t.backend = select caps bs v)

/-- 45_variant_adapters.md section 2, FINAL: the whole next state, for each variant. -/
def Obligations.FinalFillsOutput : Prop :=
  ∀ s : State, s.err = false → s.phase = .active →
    (s.variant = .crc32 → exec .final s = .next { s with
      reg := ~~~ s.reg
      out := ⟨(~~~ s.reg).extractLsb' 24 8, (~~~ s.reg).extractLsb' 16 8, (~~~ s.reg).extractLsb' 8 8,
        (~~~ s.reg).extractLsb' 0 8⟩
      phase := .finalized, responses := s.responses ++ [⟨0, 0⟩] }) ∧
    (s.variant = .crc32Rfc1510 → exec .final s = .next { s with
      out := ⟨s.reg.extractLsb' 24 8, s.reg.extractLsb' 16 8, s.reg.extractLsb' 8 8, s.reg.extractLsb' 0 8⟩
      phase := .finalized, responses := s.responses ++ [⟨0, 0⟩] }) ∧
    (s.variant = .crc24Rfc2440 → exec .final s = .next { s with
      reg := s.reg &&& 0x00FFFFFF#32
      out := ⟨s.reg.extractLsb' 0 8, s.reg.extractLsb' 8 8, s.reg.extractLsb' 16 8, 0⟩
      phase := .finalized, responses := s.responses ++ [⟨0, 0⟩] })

/-- 45_variant_adapters.md R124: the published value of a finalized context is REG for the 32-bit variants and the
conceptual register for CRC-24, and it is the first DLEN bytes of OUT read most significant byte first. -/
def Obligations.PublishedValueOfOutput : Prop :=
  ∀ s : State, s.Inv → s.phase = .finalized →
    let P := publishedValue s.variant s.out
    (s.variant ≠ .crc24Rfc2440 →
      P = (s.out.b0.setWidth 32 <<< 24 ||| s.out.b1.setWidth 32 <<< 16 ||| s.out.b2.setWidth 32 <<< 8 |||
        s.out.b3.setWidth 32) ∧ P = s.reg) ∧
    (s.variant = .crc24Rfc2440 →
      P = (s.out.b0.setWidth 32 <<< 16 ||| s.out.b1.setWidth 32 <<< 8 ||| s.out.b2.setWidth 32) ∧
        P = conceptual s.reg) ∧
    P = leadingBytes (outputSize s.phase s.variant).toNat s.out

/-- 45_variant_adapters.md section 2, READ: a finalized context answers OUT, most significant byte OUT[0], as often as
asked; that is P for the 32-bit variants and P << 8 for CRC-24. -/
def Obligations.ReadAnswersOutput : Prop :=
  ∀ s : State, s.err = false → s.phase = .finalized →
    let d : Word := s.out.b0.setWidth 32 <<< 24 ||| s.out.b1.setWidth 32 <<< 16 ||| s.out.b2.setWidth 32 <<< 8 |||
      s.out.b3.setWidth 32
    exec .read s = .next (s.answered 0 d) ∧
    exec .read (s.answered 0 d) = .next ((s.answered 0 d).answered 0 d) ∧
    (s.Inv → d = if s.variant = .crc24Rfc2440 then publishedValue s.variant s.out <<< 8
      else publishedValue s.variant s.out)

/-- 41_table_generator.md section 4, TBLRD: V = 0 and V = 1 read TAB32, V = 2 reads TAB24, in every phase, and nothing
changes. -/
def Obligations.TblrdAnswersEntry : Prop :=
  ∀ (s : State) (idx : BitVec 10), s.err = false →
    exec (.tblrd 0 idx) s = .next (s.answered 0 (entry .f32 idx.toNat)) ∧
    exec (.tblrd 1 idx) s = .next (s.answered 0 (entry .f32 idx.toNat)) ∧
    exec (.tblrd 2 idx) s = .next (s.answered 0 (entry .f24 idx.toNat))

/-- 45_variant_adapters.md section 2, STAT, with the layout of 10_state.md section 4 and the cause codes of
60_exceptions.md R141: STAT always answers (0, d), and d has these fields; in the states of the invariant VARIANT reads
0 in IDLE and CAUSE reads 0 with ERR = 0. -/
def Obligations.StatAnswersStatus : Prop :=
  ∀ s : State, ∃ d, exec .stat s = .next (s.answered 0 d) ∧
    d.extractLsb' 0 2 = (match s.phase with | .idle => 0#2 | .active => 1#2 | .finalized => 2#2) ∧
    d.extractLsb' 2 2 = (match s.variant with | .crc32 => 0#2 | .crc32Rfc1510 => 1#2 | .crc24Rfc2440 => 2#2) ∧
    d.extractLsb' 4 4 = 0 ∧
    d.extractLsb' 8 1 = (if s.err then 1 else 0) ∧
    d.extractLsb' 9 3 = 0 ∧
    d.extractLsb' 12 4 = (match s.cause with
      | .none => 0#4
      | .illegalOpcode => 1#4
      | .reservedField => 2#4
      | .badVariant => 3#4
      | .notInitialized => 4#4
      | .writeAfterFinal => 5#4
      | .finalTwice => 6#4
      | .readBeforeFinal => 7#4) ∧
    d.extractLsb' 16 3 = (if s.phase = .idle then 0 else if s.variant = .crc24Rfc2440 then 3 else 4) ∧
    d.extractLsb' 19 13 = 0 ∧
    (s.Inv → (s.phase = .idle → d.extractLsb' 2 2 = 0) ∧ (s.err = false → d.extractLsb' 12 4 = 0))

/-! ## The tables and the engines -/

/-- 41_table_generator.md R83: slices 1, 2 and 3 are made from the slice before by one zero-byte step. -/
def Obligations.SlicesByZeroByteStep : Prop :=
  ∀ (t : Family) (k i : Nat), 1 ≤ k → k < 4 → i < 256 →
    entry t (256 * k + i) = next t (entry t (256 * (k - 1) + i)) 0

/-- 41_table_generator.md R86: the properties of the tables. -/
def Obligations.TableProperties : Prop :=
  (∀ (t : Family) (k : Nat), k < 4 → entry t (256 * k) = 0) ∧
  (∀ (t : Family) (k : Nat) (a b : Byte), k < 4 →
    entry t (256 * k + (a ^^^ b).toNat) = entry t (256 * k + a.toNat) ^^^ entry t (256 * k + b.toNat)) ∧
  (∀ j, j ≤ 1023 → (entry .f24 j).extractLsb' 24 8 = 0) ∧
  entry .f32 1 = 0x77073096#32 ∧ entry .f32 128 = 0xEDB88320#32 ∧ entry .f32 255 = 0x2D02EF8D#32 ∧
  entry .f24 1 = 0x00FB4C86#32 ∧ entry .f24 255 = 0x003885DD#32 ∧
  (entry .f32 1).extractLsb' 24 8 = 0x77#8

/-- 43_slicing_engine.md R102: one slicing step equals four scalar steps. -/
def Obligations.SlicingStepIsFourScalarSteps : Prop :=
  ∀ (t : Family) (c w : Word),
    next4 t c w =
      next t (next t (next t (next t c (w.extractLsb' 0 8)) (w.extractLsb' 8 8)) (w.extractLsb' 16 8))
        (w.extractLsb' 24 8)

/-- 43_slicing_engine.md section 1 (R101): the source's CRC-24 form agrees with `next4` where the register's top byte
is zero, and differs from it for the 32-bit table. -/
def Obligations.SourceSlicingFormAgrees : Prop :=
  (∀ (t : Family) (c w : Word), c.extractLsb' 24 8 = 0 → next4Src24 t c w = next4 t c w) ∧
  ∃ c w, next4Src24 .f32 c w ≠ next4 .f32 c w

/-- 43_slicing_engine.md R104: the tiers equal the reference, and the reference splits over concatenation. -/
def Obligations.ChunkingInvariance : Prop :=
  (∀ (t : Family) (c : Word) (s : List Byte), updTier t c s = updRef t c s) ∧
  (∀ (t : Family) (c : Word) (s r : List Byte), updRef t c (s ++ r) = updRef t (updRef t c s) r)

/-- 45_variant_adapters.md R121: REG holds the conceptual CRC-24 register scaled and byte-swapped, the seed is that of
0xB704CE, and one `next` step is the non-reflected byte step on it. -/
def Obligations.Crc24ConceptualStep : Prop :=
  (∀ c : Word, c.extractLsb' 24 8 = 0 → c = bswap32 (conceptual c <<< 8)) ∧
  (∀ C : Word, C.extractLsb' 24 8 = 0 → conceptual (bswap32 (C <<< 8)) = C) ∧
  bswap32 (0x00B704CE#32 <<< 8) = 0x00CE04B7#32 ∧
  (∀ (c : Word) (b : Byte), c.extractLsb' 24 8 = 0 →
    conceptual (next .f24 c b) =
      ((conceptual c <<< 8) &&& 0x00FFFFFF#32) ^^^ conceptualEntry ((conceptual c).extractLsb' 16 8 ^^^ b)) ∧
  (∀ i : Byte, entry .f24 i.toNat = bswap32 (conceptualEntry i <<< 8))

/-! ## WRB, WRW, WRITE -/

/-- 42_scalar_engine.md section 2, WRB: the whole next state. -/
def Obligations.WrbConsumesByte : Prop :=
  ∀ (s : State) (b : Byte), s.err = false → s.phase = .active →
    exec (.wrb b) s = .next { s with
      reg := (s.reg >>> 8) ^^^
        entry (if s.variant = .crc24Rfc2440 then .f24 else .f32) (s.reg.extractLsb' 0 8 ^^^ b).toNat
      responses := s.responses ++ [⟨0, 0⟩] }

/-- 43_slicing_engine.md section 3, WRW: the whole next state. -/
def Obligations.WrwConsumesWord : Prop :=
  ∀ (s : State) (data : Word), s.err = false → s.phase = .active →
    let t : Family := if s.variant = .crc24Rfc2440 then .f24 else .f32
    let x := s.reg ^^^ data
    exec (.wrw data) s = .next { s with
      reg := entry t ((x.extractLsb' 0 8).toNat + 768) ^^^ entry t ((x.extractLsb' 8 8).toNat + 512) ^^^
        entry t ((x.extractLsb' 16 8).toNat + 256) ^^^ entry t (x.extractLsb' 24 8).toNat
      responses := s.responses ++ [⟨0, 0⟩] }

/-- 43_slicing_engine.md section 3, 42_scalar_engine.md section 2: WRW of four bytes leaves REG as four WRBs do. -/
def Obligations.WrwEqualsFourWrb : Prop :=
  ∀ (s : State) (b0 b1 b2 b3 : Byte), s.err = false → s.phase = .active →
    ∃ t u, exec (.wrw (le32 b0 b1 b2 b3)) s = .next t ∧
      execAll [.wrb b0, .wrb b1, .wrb b2, .wrb b3] s = .next u ∧ t.reg = u.reg

/-- 44_dispatch_write.md R115: a null or empty WRITE that passes the precheck changes nothing; in IDLE and FINALIZED it
faults. -/
def Obligations.EmptyWriteChangesNothing : Prop :=
  ∀ (s : State) (addr : Address) (len : BitVec 32), addr = 0 ∨ len = 0 → s.err = false →
    (s.phase = .active → exec (.write addr len) s = .next (s.answered 0 0)) ∧
    (s.phase = .idle → exec (.write addr len) s = .next (s.faulted .notInitialized)) ∧
    (s.phase = .finalized → exec (.write addr len) s = .next (s.faulted .writeAfterFinal))

/-- 44_dispatch_write.md section 2, WRITE: an admitted buffer is consumed whole, by the tiers where BACKEND is NONE and
by the backend's update where it is ACCEL(k); the whole next state. -/
def Obligations.WriteConsumesBuffer : Prop :=
  ∀ (s : State) (addr : Address) (len : BitVec 32) (bytes : List Byte),
    s.err = false → s.phase = .active → addr ≠ 0 → len ≠ 0 → untouched s addr len →
      holdsBytes s.readable s.mem addr len bytes →
        exec (.write addr len) s = .next { s with
          reg := match s.backend with
            | .none => updTier (if s.variant = .crc24Rfc2440 then .f24 else .f32) s.reg bytes
            | .accel k => backendUpdate s.backends k s.reg bytes
          responses := s.responses ++ [⟨0, 0⟩] }

/-- 44_dispatch_write.md section 1 (R113), under the contract that notes/assumptions/5.md takes as the backends' meaning:
a backend computes the reference update of its family on every register value the contract covers. -/
def Obligations.BackendFollowsContract : Prop :=
  ∀ (bs : List BackendEntry) (k : Nat) (b : BackendEntry) (c : Word) (bytes : List Byte),
    bs[k]? = some b → (b.family = .f24 → c.extractLsb' 24 8 = 0) →
      backendUpdate bs k c bytes = updRef b.family c bytes

/-- 44_dispatch_write.md R118: whatever BACKEND holds, a WRITE sets REG to the reference update, and the REG that any
sequence of WRITE, WRB and WRW in one context leaves is the reference update over all their bytes in order. It rests on
the backends' contract (R113, notes/assumptions/5.md). -/
def Obligations.StreamFoldsReference : Prop :=
  (∀ (s : State) (addr : Address) (len : BitVec 32) (bytes : List Byte),
    s.Inv → s.err = false → s.phase = .active → addr ≠ 0 → len ≠ 0 → untouched s addr len →
      holdsBytes s.readable s.mem addr len bytes →
        exec (.write addr len) s = .next { s with
          reg := updRef (familyOf s.variant) s.reg bytes, responses := s.responses ++ [⟨0, 0⟩] }) ∧
  (∀ (is : List Instr) (s t : State),
    s.Inv → s.err = false → s.phase = .active → (∀ i ∈ is, isStream i = true) → execAll is s = .next t →
      t.reg = updRef (familyOf s.variant) s.reg (is.flatMap (streamBytes s.readable s.mem)))

/-- 43_slicing_engine.md section 2, 44_dispatch_write.md section 2: a WRITE of a buffer equals two WRITEs of its two
parts, wherever it is cut, at either end included. It rests on the backends' contract (R113, notes/assumptions/5.md). -/
def Obligations.WriteSplitsAnywhere : Prop :=
  ∀ (s t : State) (addr : Address) (m n : BitVec 32),
    s.Inv → s.err = false → s.phase = .active → addr ≠ 0 →
      addr.toNat + m.toNat + n.toNat ≤ 2 ^ 32 → exec (.write addr (m + n)) s = .next t →
        ∃ u v, exec (.write addr m) s = .next u ∧ exec (.write (addr + m) n) u = .next v ∧ v.reg = t.reg

/-- 20_memory.md R43: a WRITE is stuck exactly if its buffer is not admitted, whatever bytes the host has stored there.
A byte is readable exactly if a region of the platform's Readable holds its address. -/
def Obligations.StuckExactlyIfNotAdmitted : Prop :=
  ∀ (s : State) (addr : Address) (len : BitVec 32),
    s.err = false → s.phase = .active → addr ≠ 0 → len ≠ 0 → untouched s addr len →
      (exec (.write addr len) s = .fault .stuckWrite ↔
        ¬ (addr.toNat + len.toNat ≤ 2 ^ 32 ∧
          ∀ a, addr.toNat ≤ a → a < addr.toNat + len.toNat →
            ∃ r ∈ s.readable, r.base.toNat ≤ a ∧ a < r.base.toNat + r.size))

/-- 70_reset_and_hazards.md sections 3 and 6 (R163, R170): a stuck WRITE stops all later commands until the host resets;
words sent meanwhile are lost (the model's choice, notes/assumptions/7.md), the host's changes of its memory and of
Readable are not. -/
def Obligations.StuckUntilReset : Prop :=
  ∀ (s : State) (ws : List Word) (i : Instr) (h : List HostAction),
    decode ws = .ok (i, []) → s.rx = [] → s.host = ws.map HostAction.send ++ h →
      exec i { s with host := h, touched := [] } = .fault .stuckWrite →
        (HostAction.reset ∉ h → HostAction.resetInProgress ∉ h → step s = .fault .stuckWrite) ∧
        (∀ before pull after, pull = HostAction.reset ∨ pull = HostAction.resetInProgress →
          h = before ++ pull :: after → HostAction.reset ∉ before → HostAction.resetInProgress ∉ before →
          ∃ t, step s = .next t ∧ t.phase = .idle ∧ t.variant = .crc32 ∧ t.backend = .none ∧ t.err = false ∧
            t.cause = .none ∧ t.rx = [] ∧ t.host = after ∧ t.responses = s.responses ∧ t.caps = s.caps ∧
            t.backends = s.backends ∧ t.mem = memoryAfter before s.mem ∧
            t.readable = readableAfter before s.readable)

/-- 20_memory.md section 6 (R50 (b)), notes/assumptions/8.md: a store into the buffer of a WRITE that has begun is
recorded, and the WRITE that would read it is refused by name; a store while no command has begun is not recorded. -/
def Obligations.TouchedBufferIsRefused : Prop :=
  (∀ (s : State) (addr : Address) (b : Byte) (h : List HostAction), s.host = .store addr b :: h →
    ∃ t, step s = .next t ∧ t.touched = if s.rx = [] then s.touched else s.touched ++ [addr]) ∧
  (∀ (s : State) (addr : Address) (len : BitVec 32), s.err = false → s.phase = .active → addr ≠ 0 → len ≠ 0 →
    ¬ untouched s addr len → exec (.write addr len) s = .refused .bufferChangedDuringWrite)

/-! ## The host's memory -/

/-- 20_memory.md sections 1, 5 and 6, 70_reset_and_hazards.md section 6: a host store writes the value stored to one
byte, leaves every other byte as it was, and touches nothing of the core. That the host stores single bytes
(notes/assumptions/18.md) and that a store changes no readability (notes/assumptions/6.md) are the model's choices. -/
def Obligations.HostStoreChangesOneByte : Prop :=
  ∀ (s : State) (addr : Address) (b : Byte) (h : List HostAction), s.Inv → s.host = .store addr b :: h →
    ∃ t, step s = .next t ∧ Memory.read t.mem addr.toNat = b ∧
      (∀ a, a ≠ addr.toNat → Memory.read t.mem a = Memory.read s.mem a) ∧ Memory.wf t.mem = true ∧
      t.readable = s.readable ∧ t = { s with host := h, mem := t.mem, touched := t.touched }

/-! ## The pseudo-instructions -/

/-- 30_encoding.md section 6 (R77): `wrbytes` leaves in REG what a WRITE of the same bytes leaves with BACKEND = NONE. -/
def Obligations.WrbytesFoldsBytes : Prop :=
  ∀ (s : State) (bytes : List Byte), s.err = false → s.phase = .active →
    ∃ t, execAll (wrbytesCommands bytes) s = .next t ∧ t.reg = updTier (familyOf s.variant) s.reg bytes ∧
      t.phase = .active ∧ t.err = false

/-- 30_encoding.md section 6 (R77), source §6: `digest` on one buffer, readable, null or empty, completes, whatever CAPS
and BACKENDS are, and its last response carries the finalized checksum of the bytes, of none for a null or empty
buffer. It rests on the backends' contract (R113, notes/assumptions/5.md). -/
def Obligations.DigestAnswersChecksum : Prop :=
  ∀ (s : State) (addr : Address) (len : BitVec 32) (bytes : List Byte),
    s.err = false →
    ((addr = 0 ∨ len = 0) ∧ bytes = []) ∨
      (addr ≠ 0 ∧ len ≠ 0 ∧ untouched s addr len ∧ holdsBytes s.readable s.mem addr len bytes) →
      (∃ t, execAll (digestCommands 0 addr len) s = .next t ∧ t.responses = s.responses ++
        [⟨0, 0⟩, ⟨0, 0⟩, ⟨0, 0⟩, ⟨0, ~~~ updRef .f32 0xFFFFFFFF#32 bytes⟩]) ∧
      (∃ t, execAll (digestCommands 1 addr len) s = .next t ∧ t.responses = s.responses ++
        [⟨0, 0⟩, ⟨0, 0⟩, ⟨0, 0⟩, ⟨0, updRef .f32 0#32 bytes⟩]) ∧
      (∃ t, execAll (digestCommands 2 addr len) s = .next t ∧ t.responses = s.responses ++
        [⟨0, 0⟩, ⟨0, 0⟩, ⟨0, 0⟩, ⟨0, conceptual (updRef .f24 0x00CE04B7#32 bytes) <<< 8⟩])

/-- 30_encoding.md section 6 (R76, R77): a line with a value that does not fit its field is an assembly error, and every
other line emits the words of its command, or of the commands it expands to: for `wrbytes` one WRW for each whole group
of four bytes, the first in bits 7:0, then one WRB for each remaining byte. -/
def Obligations.AssemblerNeverTruncates : Prop :=
  (∀ v, asmWords (.init v) = if v < 3 then some (encode (.init (BitVec.ofNat 2 v))) else none) ∧
  (∀ a l, asmWords (.write a l) = if a < 2 ^ 32 ∧ l < 2 ^ 32
    then some (encode (.write (BitVec.ofNat 32 a) (BitVec.ofNat 32 l))) else none) ∧
  (∀ b, asmWords (.wrb b) = if b < 256 then some (encode (.wrb (BitVec.ofNat 8 b))) else none) ∧
  (∀ w, asmWords (.wrw w) = if w < 2 ^ 32 then some (encode (.wrw (BitVec.ofNat 32 w))) else none) ∧
  (∀ v k b, asmWords (.tblrdSlice v k b) = if v < 3 ∧ k < 4 ∧ b < 256
    then some (encode (.tblrd (BitVec.ofNat 2 v) (BitVec.ofNat 10 (256 * k + b)))) else none) ∧
  (∀ v n, asmWords (.tblrd v n) = if v < 3 ∧ n < 1024
    then some (encode (.tblrd (BitVec.ofNat 2 v) (BitVec.ofNat 10 n))) else none) ∧
  (asmWords .final = some (encode .final) ∧ asmWords .read = some (encode .read) ∧
    asmWords .stat = some (encode .stat)) ∧
  (∀ n, asmWords (.word n) = if n < 2 ^ 32 then some [BitVec.ofNat 32 n] else none) ∧
  (∀ v a l, asmWords (.digest v a l) = if v < 3 ∧ a < 2 ^ 32 ∧ l < 2 ^ 32
    then some ([.init (BitVec.ofNat 2 v), .write (BitVec.ofNat 32 a) (BitVec.ofNat 32 l), .final, .read].flatMap encode)
    else none) ∧
  (∀ bs, asmWords (.wrbytes bs) = if ∀ b ∈ bs, b < 256
    then some
      (((List.range (bs.length / 4)).map (fun j => Instr.wrw
          (BitVec.ofNat 8 (bs.getD (4 * j + 3) 0) ++ BitVec.ofNat 8 (bs.getD (4 * j + 2) 0) ++
            BitVec.ofNat 8 (bs.getD (4 * j + 1) 0) ++ BitVec.ofNat 8 (bs.getD (4 * j) 0))) ++
        (bs.drop (4 * (bs.length / 4))).map (fun b => Instr.wrb (BitVec.ofNat 8 b))).flatMap encode)
    else none)

/-! ## Invariants and whole-machine rules -/

/-- The invariant holds after reset. -/
def Obligations.InvariantAtReset : Prop := State.reset.Inv

/-- The invariant: canonical memory, BACKEND and VARIANT as INIT left them, REG[31:24] = 0 in a CRC-24 context, OUT the
bytes of the finalized REG, CAUSE with ERR, fewer words kept than the command has. Every step keeps it. -/
def Obligations.StepKeepsInvariant : Prop :=
  ∀ s t : State, s.Inv → step s = .next t → t.Inv

/-- 45_variant_adapters.md R128: on every run from reset, under any CAPS, BACKENDS, input memory and host. -/
def Obligations.Crc24TopByteZeroOnEveryRun : Prop :=
  ∀ (caps : Nat) (bs : List BackendEntry) (m : Memory) (h : List HostAction) (n : Nat) (t : State),
    Memory.wf m = true →
      Host.Core.run Sys2Proof.core n { State.reset with caps := caps, backends := bs, mem := m, host := h } = .next t →
        t.variant = .crc24Rfc2440 → t.phase ≠ .idle → t.reg.extractLsb' 24 8 = 0

/-- 00_scope.md section 4 (R7), 44_dispatch_write.md section 1 (R112): CAPS and BACKENDS are constant over every step, and
Readable over every step of a platform that does not change it. -/
def Obligations.ParametersConstant : Prop :=
  ∀ s t : State, step s = .next t → t.caps = s.caps ∧ t.backends = s.backends ∧
    ((∀ rs, HostAction.setReadable rs ∉ s.host) → t.readable = s.readable)

/-- 10_state.md section 3 (R24), 44_dispatch_write.md section 1: which path executes is not visible. With any other
CAPS and BACKENDS, and the backend INIT would have selected under them, every command answers the same response and
leaves every other element the same. It rests on the backends' contract (R113, notes/assumptions/5.md). -/
def Obligations.BackendIsInvisible : Prop :=
  ∀ (i : Instr) (s t : State) (caps : Nat) (bs : List BackendEntry), s.Inv → exec i s = .next t →
    ∃ u, exec i { s with
        caps := caps, backends := bs
        backend := if s.phase = .idle then .none else select caps bs s.variant } = .next u ∧
      u.responses = t.responses ∧ u.reg = t.reg ∧ u.phase = t.phase ∧ u.variant = t.variant ∧ u.out = t.out ∧
      u.err = t.err ∧ u.cause = t.cause

/-! ## The generator, Readable and a reset during a command -/

/-- 41_table_generator.md R81, R82: slice 0 of both tables, made by the eight-times loop from every byte. The loop's body
is written out; the byte swap is written as a concatenation. -/
def Obligations.SliceZeroIsGenerated : Prop :=
  ∀ i : Byte,
    entry .f32 i.toNat =
      (fun c : Word => if c.extractLsb' 0 1 = 1 then (c >>> 1) ^^^ 0xEDB88320#32 else c >>> 1)^[8] (i.setWidth 32) ∧
    entry .f24 i.toNat =
      (let c := (fun c : Word => if c.extractLsb' 31 1 = 1 then (c <<< 1) ^^^ 0x864CFB00#32 else c <<< 1)^[8]
          (i.setWidth 32 <<< 24);
        c.extractLsb' 0 8 ++ c.extractLsb' 8 8 ++ c.extractLsb' 16 8 ++ c.extractLsb' 24 8)

/-- 20_memory.md sections 1 and 5, 70_reset_and_hazards.md section 6: which addresses are readable is the platform's. It
changes Readable and nothing else, and MemRead is then defined exactly on the addresses of its regions, where it gives
the byte of the input memory. That it may change Readable in the course of a run is the model's choice
(notes/assumptions/6.md). -/
def Obligations.ReadableIsThePlatforms : Prop :=
  ∀ (s : State) (rs : List Region) (h : List HostAction), s.host = .setReadable rs :: h →
    ∃ t, step s = .next t ∧ t = { s with readable := rs, host := h } ∧
      ∀ a, ((∃ r ∈ rs, r.base.toNat ≤ a ∧ a < r.base.toNat + r.size) →
          memRead t.readable t.mem a = some (Memory.read s.mem a)) ∧
        ((∀ r ∈ rs, ¬ (r.base.toNat ≤ a ∧ a < r.base.toNat + r.size)) → memRead t.readable t.mem a = none)

/-- 70_reset_and_hazards.md section 6 (R170), section 1: a reset pulled while a command is in progress discards it,
whatever the command is, with its effects and its response; the host's changes of its memory and of Readable before it
are not lost. -/
def Obligations.ResetDiscardsCommand : Prop :=
  ∀ (s : State) (cw : Word) (ops ws : List Word) (before after : List HostAction),
    ws ≠ [] → s.rx ++ ws = cw :: ops → ops.length + 1 = commandLength cw →
    s.host = ws.map HostAction.send ++ (before ++ .resetInProgress :: after) →
    (∀ a ∈ before, (∃ x b, a = .store x b) ∨ ∃ rs, a = .setReadable rs) →
      ∃ t, step s = .next t ∧ t.phase = .idle ∧ t.variant = .crc32 ∧ t.backend = .none ∧ t.err = false ∧
        t.cause = .none ∧ t.rx = [] ∧ t.host = after ∧ t.responses = s.responses ∧ t.caps = s.caps ∧
        t.backends = s.backends ∧ t.mem = memoryAfter before s.mem ∧ t.readable = readableAfter before s.readable
end

