-- ==== Sys2Proof/Laws/Memory.lean ====
section
/-! SUPPORT. The input memory: read after write, that a write keeps the canonical form, and what WRITE reads of it. -/

namespace Sys2Proof.Machine

/-- Below and at the bound of a canonical list nothing is listed. -/
theorem Memory.read_of_le {m : Memory} {l x : Nat} (h : Memory.risesFrom (some l) m = true) (hx : x ≤ l) :
    Memory.read m x = Config.unlistedByte := by
  induction m generalizing l with
  | nil => rfl
  | cons c m ih =>
    obtain ⟨a, b⟩ := c
    simp only [Memory.risesFrom, Bool.and_eq_true, decide_eq_true_eq] at h
    have hxa : x ≠ a := by omega
    simp only [Memory.read, hxa, if_false]
    exact ih h.2 (by omega)

theorem Memory.read_put_same (m : Memory) (x : Nat) (v : Byte) (h : Memory.read m x = Config.unlistedByte) :
    Memory.read (Memory.put x v m) x = v := by
  unfold Memory.put
  split
  · rename_i hv; rw [h, hv]
  · simp [Memory.read]

theorem Memory.read_put_other (m : Memory) {x y : Nat} (v : Byte) (h : y ≠ x) :
    Memory.read (Memory.put x v m) y = Memory.read m y := by
  unfold Memory.put
  split
  · rfl
  · simp [Memory.read, h]

theorem Memory.risesFrom_mono {m : Memory} {lo : Option Nat} {l : Nat} (hl : ∀ k, lo = some k → k ≤ l)
    (h : Memory.risesFrom (some l) m = true) : Memory.risesFrom lo m = true := by
  cases m with
  | nil => cases lo <;> rfl
  | cons c m =>
    obtain ⟨a, b⟩ := c
    simp only [Memory.risesFrom, Bool.and_eq_true, decide_eq_true_eq] at h ⊢
    refine ⟨⟨⟨?_, h.1.1.2⟩, h.1.2⟩, h.2⟩
    cases lo with
    | none => rfl
    | some k =>
      have := hl k rfl
      have := h.1.1.1
      simp only [decide_eq_true_eq]
      omega

theorem Memory.risesFrom_put {m : Memory} {lo : Option Nat} {x : Nat} (v : Byte) (hx : x < Config.addressSpace)
    (hlo : ∀ l, lo = some l → l < x) (h : Memory.risesFrom (some x) m = true) :
    Memory.risesFrom lo (Memory.put x v m) = true := by
  unfold Memory.put
  split
  · exact Memory.risesFrom_mono (fun k hk => (hlo k hk).le) h
  · rename_i hv
    cases lo <;> simp_all [Memory.risesFrom]

/-- A write is read back, in a memory in canonical form. -/
theorem Memory.read_write_rises {m : Memory} {lo : Option Nat} (x : Nat) (v : Byte)
    (h : Memory.risesFrom lo m = true) : Memory.read (Memory.write m x v) x = v := by
  induction m generalizing lo with
  | nil => exact Memory.read_put_same [] x v rfl
  | cons c m ih =>
    obtain ⟨a, b⟩ := c
    simp only [Memory.risesFrom, Bool.and_eq_true, decide_eq_true_eq] at h
    simp only [Memory.write]
    split
    · refine Memory.read_put_same _ x v ?_
      have hxa : x ≠ a := by omega
      simp only [Memory.read, hxa, if_false]
      exact Memory.read_of_le h.2 (by omega)
    · split
      · rename_i hxa
        exact Memory.read_put_same _ x v (Memory.read_of_le h.2 hxa.le)
      · rename_i hxa
        simp only [Memory.read, hxa, if_false]
        exact ih h.2

theorem Memory.read_write_same {m : Memory} (x : Nat) (v : Byte) (h : Memory.wf m = true) :
    Memory.read (Memory.write m x v) x = v :=
  Memory.read_write_rises x v h

theorem Memory.read_write_other (m : Memory) {x y : Nat} (v : Byte) (h : y ≠ x) :
    Memory.read (Memory.write m x v) y = Memory.read m y := by
  induction m with
  | nil => exact Memory.read_put_other [] v h
  | cons c m ih =>
    obtain ⟨a, b⟩ := c
    simp only [Memory.write]
    split
    · exact Memory.read_put_other _ v h
    · split
      · rename_i hxa
        rw [Memory.read_put_other _ v h]
        simp [Memory.read, ← hxa, h]
      · simp only [Memory.read, ih]

theorem Memory.risesFrom_write (m : Memory) (lo : Option Nat) (x : Nat) (v : Byte)
    (hx : x < Config.addressSpace) (hlo : ∀ l, lo = some l → l < x) (h : Memory.risesFrom lo m = true) :
    Memory.risesFrom lo (Memory.write m x v) = true := by
  induction m generalizing lo with
  | nil => exact Memory.risesFrom_put v hx hlo rfl
  | cons c m ih =>
    obtain ⟨a, b⟩ := c
    have h' := h
    simp only [Memory.risesFrom, Bool.and_eq_true, decide_eq_true_eq] at h
    simp only [Memory.write]
    split
    · rename_i hlt
      refine Memory.risesFrom_put v hx hlo ?_
      simp [Memory.risesFrom, hlt, h.1.1.2, h.2]
      simpa using h.1.2
    · split
      · rename_i hxa
        subst hxa
        exact Memory.risesFrom_put v hx hlo h.2
      · rename_i hlt hne
        have hax : a < x := by omega
        simp only [Memory.risesFrom, Bool.and_eq_true, decide_eq_true_eq]
        exact ⟨h.1, ih (some a) (fun l hl => by cases hl; exact hax) h.2⟩

/-- A host store keeps the canonical form. -/
theorem Memory.wf_write (m : Memory) (a : Address) (v : Byte) (h : Memory.wf m = true) :
    Memory.wf (Memory.write m a.toNat v) = true :=
  Memory.risesFrom_write m none a.toNat v a.isLt (fun _ hl => by cases hl) h

theorem Memory.wf_reset : Memory.wf State.reset.mem = true := rfl

/-- Readable(a): some region holds the address. -/
theorem isReadable_iff (rs : List Region) (a : Nat) :
    isReadable rs a = true ↔ ∃ r ∈ rs, r.base.toNat ≤ a ∧ a < r.base.toNat + r.size := by
  simp [isReadable, regionHolds, List.any_eq_true]

/-- A read is defined exactly where Readable(a) holds, and gives IMEM[a] (20_memory.md R42). -/
theorem memRead_eq_some (rs : List Region) (m : Memory) (a : Nat) (b : Byte) :
    memRead rs m a = some b ↔ isReadable rs a = true ∧ Memory.read m a = b := by
  unfold memRead
  split <;> simp_all

theorem memRead_isSome (rs : List Region) (m : Memory) (a : Nat) :
    (memRead rs m a).isSome = isReadable rs a := by
  unfold memRead
  split <;> simp_all

/-- The bytes read are exactly those the addresses hold. -/
theorem readBytes_eq_some (rs : List Region) (m : Memory) (a n : Nat) (s : List Byte) :
    readBytes rs m a n = some s ↔
      s.length = n ∧ ∀ i, (h : i < s.length) → memRead rs m (a + i) = some s[i] := by
  induction n generalizing a s with
  | zero =>
    simp only [readBytes, Option.some.injEq]
    constructor
    · rintro rfl; simp
    · rintro ⟨h, -⟩; exact (List.length_eq_zero_iff.mp h).symm
  | succ n ih =>
    simp only [readBytes]
    cases hr : memRead rs m a with
    | none =>
      simp only [reduceCtorEq, false_iff, not_and, not_forall]
      intro h
      refine ⟨0, by omega, ?_⟩
      simp [hr]
    | some b =>
      cases s with
      | nil => cases hb : readBytes rs m (a + 1) n <;> simp
      | cons c s =>
        have key : (∀ i, (h : i < (c :: s).length) → memRead rs m (a + i) = some (c :: s)[i]) ↔
            b = c ∧ ∀ i, (h : i < s.length) → memRead rs m (a + 1 + i) = some s[i] := by
          constructor
          · intro h
            refine ⟨Option.some.inj (hr.symm.trans (h 0 (Nat.succ_pos _))), fun i hi => ?_⟩
            have := h (i + 1) (by simpa using hi)
            simpa [Nat.add_assoc, Nat.add_comm 1 i] using this
          · rintro ⟨rfl, h⟩ i hi
            cases i with
            | zero => simpa using hr
            | succ i =>
              have := h i (by simpa using hi)
              simpa [Nat.add_assoc, Nat.add_comm 1 i] using this
        rw [key]
        cases hb : readBytes rs m (a + 1) n with
        | none =>
          have := (ih (a + 1) s).not.mp (by simp [hb])
          simp only [reduceCtorEq, false_iff]
          rintro ⟨hl, -, h⟩
          exact this ⟨by simpa using hl, h⟩
        | some s' =>
          have := ih (a + 1) s
          rw [hb] at this
          simp only [Option.some.injEq, List.cons.injEq, List.length_cons] at this ⊢
          constructor
          · rintro ⟨rfl, hs⟩
            obtain ⟨h1, h2⟩ := this.mp hs
            exact ⟨by omega, rfl, h2⟩
          · rintro ⟨h1, rfl, h2⟩
            exact ⟨rfl, this.mpr ⟨by omega, h2⟩⟩

/-- The bytes WRITE reads are those the buffer holds (20_memory.md R43). -/
theorem admittedBytes_eq_some (rs : List Region) (m : Memory) (addr : Address) (len : BitVec 32) (s : List Byte) :
    admittedBytes rs m addr len = some s ↔ holdsBytes rs m addr len s := by
  unfold admittedBytes holdsBytes
  by_cases h : addr.toNat + len.toNat ≤ Config.addressSpace
  · rw [if_pos h, readBytes_eq_some]
    exact ⟨fun hb => ⟨h, hb⟩, fun hb => hb.2⟩
  · rw [if_neg h]
    exact ⟨fun hb => (Option.some_ne_none _ hb.symm).elim, fun hb => (h hb.1).elim⟩

theorem bufferTouched_eq_false (s : State) (addr : Address) (len : BitVec 32) :
    bufferTouched s.touched addr len = false ↔ untouched s addr len := by
  simp [bufferTouched, untouched, List.any_eq_false]

theorem emptyBuffer_eq_true (addr : Address) (len : BitVec 32) :
    emptyBuffer addr len = true ↔ addr = 0 ∨ len = 0 := by
  simp [emptyBuffer]

end Sys2Proof.Machine
end

