-- ==== Sys2Proof/Laws/State.lean ====
section
/-! SUPPORT. What each named update leaves in each field of the state: one lemma per field per update. -/

namespace Sys2Proof.Machine

variable (s : State)

/-! `State.respond` (30_encoding.md R74). -/

@[simp] theorem State.respond_reg (r : BitVec 1) (d : Word) : (s.respond r d).reg = s.reg := rfl
@[simp] theorem State.respond_phase (r : BitVec 1) (d : Word) : (s.respond r d).phase = s.phase := rfl
@[simp] theorem State.respond_variant (r : BitVec 1) (d : Word) : (s.respond r d).variant = s.variant := rfl
@[simp] theorem State.respond_backend (r : BitVec 1) (d : Word) : (s.respond r d).backend = s.backend := rfl
@[simp] theorem State.respond_out (r : BitVec 1) (d : Word) : (s.respond r d).out = s.out := rfl
@[simp] theorem State.respond_err (r : BitVec 1) (d : Word) : (s.respond r d).err = s.err := rfl
@[simp] theorem State.respond_cause (r : BitVec 1) (d : Word) : (s.respond r d).cause = s.cause := rfl
@[simp] theorem State.respond_caps (r : BitVec 1) (d : Word) : (s.respond r d).caps = s.caps := rfl
@[simp] theorem State.respond_readable (r : BitVec 1) (d : Word) : (s.respond r d).readable = s.readable := rfl
@[simp] theorem State.respond_backends (r : BitVec 1) (d : Word) : (s.respond r d).backends = s.backends := rfl
@[simp] theorem State.respond_mem (r : BitVec 1) (d : Word) : (s.respond r d).mem = s.mem := rfl
@[simp] theorem State.respond_rx (r : BitVec 1) (d : Word) : (s.respond r d).rx = s.rx := rfl
@[simp] theorem State.respond_touched (r : BitVec 1) (d : Word) : (s.respond r d).touched = s.touched := rfl
@[simp] theorem State.respond_host (r : BitVec 1) (d : Word) : (s.respond r d).host = s.host := rfl
@[simp] theorem State.respond_responses (r : BitVec 1) (d : Word) :
    (s.respond r d).responses = s.responses ++ [{ rstat := r, rdata := d }] := rfl

/-! `takeFault` (60_exceptions.md R140). -/

@[simp] theorem takeFault_reg (k : Cause) : (takeFault k s).reg = s.reg := rfl
@[simp] theorem takeFault_phase (k : Cause) : (takeFault k s).phase = s.phase := rfl
@[simp] theorem takeFault_variant (k : Cause) : (takeFault k s).variant = s.variant := rfl
@[simp] theorem takeFault_backend (k : Cause) : (takeFault k s).backend = s.backend := rfl
@[simp] theorem takeFault_out (k : Cause) : (takeFault k s).out = s.out := rfl
@[simp] theorem takeFault_err (k : Cause) : (takeFault k s).err = true := rfl
@[simp] theorem takeFault_cause (k : Cause) : (takeFault k s).cause = k := rfl
@[simp] theorem takeFault_caps (k : Cause) : (takeFault k s).caps = s.caps := rfl
@[simp] theorem takeFault_readable (k : Cause) : (takeFault k s).readable = s.readable := rfl
@[simp] theorem takeFault_backends (k : Cause) : (takeFault k s).backends = s.backends := rfl
@[simp] theorem takeFault_mem (k : Cause) : (takeFault k s).mem = s.mem := rfl
@[simp] theorem takeFault_rx (k : Cause) : (takeFault k s).rx = s.rx := rfl
@[simp] theorem takeFault_touched (k : Cause) : (takeFault k s).touched = s.touched := rfl
@[simp] theorem takeFault_host (k : Cause) : (takeFault k s).host = s.host := rfl
@[simp] theorem takeFault_responses (k : Cause) :
    (takeFault k s).responses = s.responses ++ [{ rstat := 1, rdata := 0 }] := rfl

/-! `refuse` (60_exceptions.md R144). -/

@[simp] theorem refuse_reg : (refuse s).reg = s.reg := rfl
@[simp] theorem refuse_phase : (refuse s).phase = s.phase := rfl
@[simp] theorem refuse_variant : (refuse s).variant = s.variant := rfl
@[simp] theorem refuse_backend : (refuse s).backend = s.backend := rfl
@[simp] theorem refuse_out : (refuse s).out = s.out := rfl
@[simp] theorem refuse_err : (refuse s).err = s.err := rfl
@[simp] theorem refuse_cause : (refuse s).cause = s.cause := rfl
@[simp] theorem refuse_caps : (refuse s).caps = s.caps := rfl
@[simp] theorem refuse_readable : (refuse s).readable = s.readable := rfl
@[simp] theorem refuse_backends : (refuse s).backends = s.backends := rfl
@[simp] theorem refuse_mem : (refuse s).mem = s.mem := rfl
@[simp] theorem refuse_rx : (refuse s).rx = s.rx := rfl
@[simp] theorem refuse_touched : (refuse s).touched = s.touched := rfl
@[simp] theorem refuse_host : (refuse s).host = s.host := rfl
@[simp] theorem refuse_responses : (refuse s).responses = s.responses ++ [{ rstat := 1, rdata := 0 }] := rfl

/-! `startContext` (45_variant_adapters.md R122). -/

@[simp] theorem startContext_reg (v : Variant) : (startContext v s).reg = seed v := rfl
@[simp] theorem startContext_phase (v : Variant) : (startContext v s).phase = .active := rfl
@[simp] theorem startContext_variant (v : Variant) : (startContext v s).variant = v := rfl
@[simp] theorem startContext_backend (v : Variant) : (startContext v s).backend = select s.caps s.backends v := rfl
@[simp] theorem startContext_out (v : Variant) : (startContext v s).out = s.out := rfl
@[simp] theorem startContext_err (v : Variant) : (startContext v s).err = s.err := rfl
@[simp] theorem startContext_cause (v : Variant) : (startContext v s).cause = s.cause := rfl
@[simp] theorem startContext_caps (v : Variant) : (startContext v s).caps = s.caps := rfl
@[simp] theorem startContext_readable (v : Variant) : (startContext v s).readable = s.readable := rfl
@[simp] theorem startContext_backends (v : Variant) : (startContext v s).backends = s.backends := rfl
@[simp] theorem startContext_mem (v : Variant) : (startContext v s).mem = s.mem := rfl
@[simp] theorem startContext_rx (v : Variant) : (startContext v s).rx = s.rx := rfl
@[simp] theorem startContext_touched (v : Variant) : (startContext v s).touched = s.touched := rfl
@[simp] theorem startContext_host (v : Variant) : (startContext v s).host = s.host := rfl
@[simp] theorem startContext_responses (v : Variant) : (startContext v s).responses = s.responses := rfl

/-! `finalizeContext` (45_variant_adapters.md R123). -/

@[simp] theorem finalizeContext_reg : (finalizeContext s).reg = finalizeReg s.variant s.reg := rfl
@[simp] theorem finalizeContext_phase : (finalizeContext s).phase = .finalized := rfl
@[simp] theorem finalizeContext_variant : (finalizeContext s).variant = s.variant := rfl
@[simp] theorem finalizeContext_backend : (finalizeContext s).backend = s.backend := rfl
@[simp] theorem finalizeContext_out :
    (finalizeContext s).out = outputBytes s.variant (finalizeReg s.variant s.reg) := rfl
@[simp] theorem finalizeContext_err : (finalizeContext s).err = s.err := rfl
@[simp] theorem finalizeContext_cause : (finalizeContext s).cause = s.cause := rfl
@[simp] theorem finalizeContext_caps : (finalizeContext s).caps = s.caps := rfl
@[simp] theorem finalizeContext_readable : (finalizeContext s).readable = s.readable := rfl
@[simp] theorem finalizeContext_backends : (finalizeContext s).backends = s.backends := rfl
@[simp] theorem finalizeContext_mem : (finalizeContext s).mem = s.mem := rfl
@[simp] theorem finalizeContext_rx : (finalizeContext s).rx = s.rx := rfl
@[simp] theorem finalizeContext_touched : (finalizeContext s).touched = s.touched := rfl
@[simp] theorem finalizeContext_host : (finalizeContext s).host = s.host := rfl
@[simp] theorem finalizeContext_responses : (finalizeContext s).responses = s.responses := rfl

/-! `consumeInto` (42_scalar_engine.md R92). -/

@[simp] theorem consumeInto_reg (c : Word) : (consumeInto c s).reg = c := rfl
@[simp] theorem consumeInto_phase (c : Word) : (consumeInto c s).phase = s.phase := rfl
@[simp] theorem consumeInto_variant (c : Word) : (consumeInto c s).variant = s.variant := rfl
@[simp] theorem consumeInto_backend (c : Word) : (consumeInto c s).backend = s.backend := rfl
@[simp] theorem consumeInto_out (c : Word) : (consumeInto c s).out = s.out := rfl
@[simp] theorem consumeInto_err (c : Word) : (consumeInto c s).err = s.err := rfl
@[simp] theorem consumeInto_cause (c : Word) : (consumeInto c s).cause = s.cause := rfl
@[simp] theorem consumeInto_caps (c : Word) : (consumeInto c s).caps = s.caps := rfl
@[simp] theorem consumeInto_readable (c : Word) : (consumeInto c s).readable = s.readable := rfl
@[simp] theorem consumeInto_backends (c : Word) : (consumeInto c s).backends = s.backends := rfl
@[simp] theorem consumeInto_mem (c : Word) : (consumeInto c s).mem = s.mem := rfl
@[simp] theorem consumeInto_rx (c : Word) : (consumeInto c s).rx = s.rx := rfl
@[simp] theorem consumeInto_touched (c : Word) : (consumeInto c s).touched = s.touched := rfl
@[simp] theorem consumeInto_host (c : Word) : (consumeInto c s).host = s.host := rfl
@[simp] theorem consumeInto_responses (c : Word) :
    (consumeInto c s).responses = s.responses ++ [{ rstat := 0, rdata := 0 }] := rfl

/-! `coreReset` (70_reset_and_hazards.md R160). -/

@[simp] theorem coreReset_reg : (coreReset s).reg = State.reset.reg := rfl
@[simp] theorem coreReset_phase : (coreReset s).phase = .idle := rfl
@[simp] theorem coreReset_variant : (coreReset s).variant = .crc32 := rfl
@[simp] theorem coreReset_backend : (coreReset s).backend = .none := rfl
@[simp] theorem coreReset_out : (coreReset s).out = State.reset.out := rfl
@[simp] theorem coreReset_err : (coreReset s).err = false := rfl
@[simp] theorem coreReset_cause : (coreReset s).cause = .none := rfl
@[simp] theorem coreReset_caps : (coreReset s).caps = s.caps := rfl
@[simp] theorem coreReset_readable : (coreReset s).readable = s.readable := rfl
@[simp] theorem coreReset_backends : (coreReset s).backends = s.backends := rfl
@[simp] theorem coreReset_mem : (coreReset s).mem = s.mem := rfl
@[simp] theorem coreReset_rx : (coreReset s).rx = [] := rfl
@[simp] theorem coreReset_touched : (coreReset s).touched = [] := rfl
@[simp] theorem coreReset_host : (coreReset s).host = s.host := rfl
@[simp] theorem coreReset_responses : (coreReset s).responses = s.responses := rfl

/-! `hostStore` (20_memory.md R50). -/

@[simp] theorem hostStore_reg (a : Address) (b : Byte) : (hostStore a b s).reg = s.reg := rfl
@[simp] theorem hostStore_phase (a : Address) (b : Byte) : (hostStore a b s).phase = s.phase := rfl
@[simp] theorem hostStore_variant (a : Address) (b : Byte) : (hostStore a b s).variant = s.variant := rfl
@[simp] theorem hostStore_backend (a : Address) (b : Byte) : (hostStore a b s).backend = s.backend := rfl
@[simp] theorem hostStore_out (a : Address) (b : Byte) : (hostStore a b s).out = s.out := rfl
@[simp] theorem hostStore_err (a : Address) (b : Byte) : (hostStore a b s).err = s.err := rfl
@[simp] theorem hostStore_cause (a : Address) (b : Byte) : (hostStore a b s).cause = s.cause := rfl
@[simp] theorem hostStore_caps (a : Address) (b : Byte) : (hostStore a b s).caps = s.caps := rfl
@[simp] theorem hostStore_readable (a : Address) (b : Byte) : (hostStore a b s).readable = s.readable := rfl
@[simp] theorem hostStore_backends (a : Address) (b : Byte) : (hostStore a b s).backends = s.backends := rfl
@[simp] theorem hostStore_mem (a : Address) (b : Byte) : (hostStore a b s).mem = Memory.write s.mem a.toNat b := rfl
@[simp] theorem hostStore_rx (a : Address) (b : Byte) : (hostStore a b s).rx = s.rx := rfl
@[simp] theorem hostStore_touched (a : Address) (b : Byte) :
    (hostStore a b s).touched = if s.rx.isEmpty then s.touched else s.touched ++ [a] := rfl
@[simp] theorem hostStore_host (a : Address) (b : Byte) : (hostStore a b s).host = s.host := rfl
@[simp] theorem hostStore_responses (a : Address) (b : Byte) : (hostStore a b s).responses = s.responses := rfl

/-! `hostSetReadable` (70_reset_and_hazards.md R162). -/

@[simp] theorem hostSetReadable_reg (rs : List Region) : (hostSetReadable rs s).reg = s.reg := rfl
@[simp] theorem hostSetReadable_phase (rs : List Region) : (hostSetReadable rs s).phase = s.phase := rfl
@[simp] theorem hostSetReadable_variant (rs : List Region) : (hostSetReadable rs s).variant = s.variant := rfl
@[simp] theorem hostSetReadable_backend (rs : List Region) : (hostSetReadable rs s).backend = s.backend := rfl
@[simp] theorem hostSetReadable_out (rs : List Region) : (hostSetReadable rs s).out = s.out := rfl
@[simp] theorem hostSetReadable_err (rs : List Region) : (hostSetReadable rs s).err = s.err := rfl
@[simp] theorem hostSetReadable_cause (rs : List Region) : (hostSetReadable rs s).cause = s.cause := rfl
@[simp] theorem hostSetReadable_caps (rs : List Region) : (hostSetReadable rs s).caps = s.caps := rfl
@[simp] theorem hostSetReadable_backends (rs : List Region) : (hostSetReadable rs s).backends = s.backends := rfl
@[simp] theorem hostSetReadable_mem (rs : List Region) : (hostSetReadable rs s).mem = s.mem := rfl
@[simp] theorem hostSetReadable_rx (rs : List Region) : (hostSetReadable rs s).rx = s.rx := rfl
@[simp] theorem hostSetReadable_touched (rs : List Region) : (hostSetReadable rs s).touched = s.touched := rfl
@[simp] theorem hostSetReadable_host (rs : List Region) : (hostSetReadable rs s).host = s.host := rfl
@[simp] theorem hostSetReadable_responses (rs : List Region) : (hostSetReadable rs s).responses = s.responses := rfl
@[simp] theorem hostSetReadable_readable (rs : List Region) : (hostSetReadable rs s).readable = rs := rfl

/-! `State.answered` (30_encoding.md R74). -/

@[simp] theorem State.answered_reg (r : BitVec 1) (d : Word) : (s.answered r d).reg = s.reg := rfl
@[simp] theorem State.answered_phase (r : BitVec 1) (d : Word) : (s.answered r d).phase = s.phase := rfl
@[simp] theorem State.answered_variant (r : BitVec 1) (d : Word) : (s.answered r d).variant = s.variant := rfl
@[simp] theorem State.answered_backend (r : BitVec 1) (d : Word) : (s.answered r d).backend = s.backend := rfl
@[simp] theorem State.answered_out (r : BitVec 1) (d : Word) : (s.answered r d).out = s.out := rfl
@[simp] theorem State.answered_err (r : BitVec 1) (d : Word) : (s.answered r d).err = s.err := rfl
@[simp] theorem State.answered_cause (r : BitVec 1) (d : Word) : (s.answered r d).cause = s.cause := rfl
@[simp] theorem State.answered_caps (r : BitVec 1) (d : Word) : (s.answered r d).caps = s.caps := rfl
@[simp] theorem State.answered_readable (r : BitVec 1) (d : Word) : (s.answered r d).readable = s.readable := rfl
@[simp] theorem State.answered_backends (r : BitVec 1) (d : Word) : (s.answered r d).backends = s.backends := rfl
@[simp] theorem State.answered_mem (r : BitVec 1) (d : Word) : (s.answered r d).mem = s.mem := rfl
@[simp] theorem State.answered_rx (r : BitVec 1) (d : Word) : (s.answered r d).rx = s.rx := rfl
@[simp] theorem State.answered_touched (r : BitVec 1) (d : Word) : (s.answered r d).touched = s.touched := rfl
@[simp] theorem State.answered_host (r : BitVec 1) (d : Word) : (s.answered r d).host = s.host := rfl
@[simp] theorem State.answered_responses (r : BitVec 1) (d : Word) :
    (s.answered r d).responses = s.responses ++ [{ rstat := r, rdata := d }] := rfl

/-! `State.faulted` (60_exceptions.md R140). -/

@[simp] theorem State.faulted_reg (k : Cause) : (s.faulted k).reg = s.reg := rfl
@[simp] theorem State.faulted_phase (k : Cause) : (s.faulted k).phase = s.phase := rfl
@[simp] theorem State.faulted_variant (k : Cause) : (s.faulted k).variant = s.variant := rfl
@[simp] theorem State.faulted_backend (k : Cause) : (s.faulted k).backend = s.backend := rfl
@[simp] theorem State.faulted_out (k : Cause) : (s.faulted k).out = s.out := rfl
@[simp] theorem State.faulted_err (k : Cause) : (s.faulted k).err = true := rfl
@[simp] theorem State.faulted_cause (k : Cause) : (s.faulted k).cause = k := rfl
@[simp] theorem State.faulted_caps (k : Cause) : (s.faulted k).caps = s.caps := rfl
@[simp] theorem State.faulted_readable (k : Cause) : (s.faulted k).readable = s.readable := rfl
@[simp] theorem State.faulted_backends (k : Cause) : (s.faulted k).backends = s.backends := rfl
@[simp] theorem State.faulted_mem (k : Cause) : (s.faulted k).mem = s.mem := rfl
@[simp] theorem State.faulted_rx (k : Cause) : (s.faulted k).rx = s.rx := rfl
@[simp] theorem State.faulted_touched (k : Cause) : (s.faulted k).touched = s.touched := rfl
@[simp] theorem State.faulted_host (k : Cause) : (s.faulted k).host = s.host := rfl
@[simp] theorem State.faulted_responses (k : Cause) :
    (s.faulted k).responses = s.responses ++ [{ rstat := 1, rdata := 0 }] := rfl

/-! The updates as the claims spell them. -/

@[simp] theorem State.respond_eq_answered (r : BitVec 1) (d : Word) : s.respond r d = s.answered r d := rfl
@[simp] theorem refuse_eq_answered : refuse s = s.answered 1 0 := rfl
@[simp] theorem takeFault_eq_faulted (k : Cause) : takeFault k s = s.faulted k := rfl
@[simp] theorem consumeInto_eq_answered (c : Word) : consumeInto c s = State.answered { s with reg := c } 0 0 := rfl

/-- Reset of the core brings the state after reset back to itself. -/
theorem coreReset_reset : coreReset State.reset = State.reset := rfl

end Sys2Proof.Machine
end

