-- ==== Sys2Proof/Laws/Precheck.lean ====
section
/-! SUPPORT. What the precheck and a misuse can do (60_exceptions.md R142): once each, to be cited. -/

namespace Sys2Proof.Machine

theorem precheck_of_err {c : Option Cause} {s : State} {r : State → StepOutcome} (h : s.err = true) :
    precheck c s r = .next (s.answered 1 0) := by
  simp [precheck, h]

theorem precheck_of_cause {k : Cause} {s : State} {r : State → StepOutcome} (h : s.err = false) :
    precheck (some k) s r = .next (s.faulted k) := by
  simp [precheck, h]

theorem precheck_of_legal {s : State} {r : State → StepOutcome} (h : s.err = false) : precheck none s r = r s := by
  simp [precheck, h]

/-- All a precheck can answer: the refusal, the fault of its cause, or what the command's own rule answers. -/
theorem precheck_cases (c : Option Cause) (s : State) (r : State → StepOutcome) :
    (s.err = true ∧ precheck c s r = .next (s.answered 1 0)) ∨
    (∃ k, s.err = false ∧ c = some k ∧ precheck c s r = .next (s.faulted k)) ∨
    (s.err = false ∧ c = none ∧ precheck c s r = r s) := by
  cases he : s.err with
  | true => exact .inl ⟨rfl, precheck_of_err he⟩
  | false =>
    cases c with
    | none => exact .inr (.inr ⟨rfl, rfl, precheck_of_legal he⟩)
    | some k => exact .inr (.inl ⟨k, rfl, rfl, precheck_of_cause he⟩)

/-- A misuse is a refusal while ERR = 1 and else the fault. -/
theorem misuse_of_err {k : Cause} {s : State} (h : s.err = true) : misuse k s = s.answered 1 0 := by
  simp [misuse, h]

theorem misuse_of_ok {k : Cause} {s : State} (h : s.err = false) : misuse k s = s.faulted k := by
  simp [misuse, h]

end Sys2Proof.Machine
end

