-- ==== Sys2Proof/Laws/Exec.lean ====
section
/-! SUPPORT. What each command can answer: one lemma per meaning, "if it answers next t, then t is one of these". -/

namespace Sys2Proof.Machine

/-- The three codes of a variant, and the reserved one (30_encoding.md R71). -/
theorem variantOf_cases (v : BitVec 2) :
    (v = 0 ∧ variantOf v = some .crc32) ∨ (v = 1 ∧ variantOf v = some .crc32Rfc1510) ∨
      (v = 2 ∧ variantOf v = some .crc24Rfc2440) ∨ (v = 3 ∧ variantOf v = none) := by
  revert v; decide

theorem variantOf_eq_none {v : BitVec 2} : variantOf v = none ↔ v = 3 := by
  revert v; decide

/-- INIT of a legal code (45_variant_adapters.md R122). -/
theorem execInit_of_variant {v : BitVec 2} {w : Variant} (s : State) (h : variantOf v = some w) :
    execInit v s = if s.err then .next (s.answered 1 0) else .next ((startContext w s).answered 0 0) := by
  simp only [execInit, h]
  cases he : s.err with
  | true => exact precheck_of_err he
  | false => exact precheck_of_legal he

/-- INIT of the reserved code (30_encoding.md R71). -/
theorem execInit_of_reserved (s : State) :
    execInit 3 s = if s.err then .next (s.answered 1 0) else .next (s.faulted .badVariant) := by
  change Host.Outcome.next (misuse .badVariant s) = _
  cases he : s.err with
  | true => rw [misuse_of_err he]; rfl
  | false => rw [misuse_of_ok he]; rfl

/-- INIT: refused, BAD_VARIANT, or the new context (45_variant_adapters.md R122). -/
theorem execInit_next {v : BitVec 2} {s t : State} (h : execInit v s = .next t) :
    (s.err = true ∧ t = s.answered 1 0) ∨ (s.err = false ∧ v = 3 ∧ t = s.faulted .badVariant) ∨
      ∃ w, s.err = false ∧ variantOf v = some w ∧ t = (startContext w s).answered 0 0 := by
  cases hv : variantOf v with
  | none =>
    obtain rfl := variantOf_eq_none.mp hv
    rw [execInit_of_reserved] at h
    cases he : s.err <;> simp [he] at h <;> simp [← h]
  | some w =>
    rw [execInit_of_variant s hv] at h
    cases he : s.err <;> simp [he] at h <;> simp [← h]

/-- WRB: refused, a phase fault, or REG advanced by one byte (42_scalar_engine.md R92). -/
theorem execWrb_next {b : Byte} {s t : State} (h : execWrb b s = .next t) :
    (s.err = true ∧ t = s.answered 1 0) ∨
      (∃ k, s.err = false ∧ writePhaseCause s.phase = some k ∧ t = s.faulted k) ∨
      (s.err = false ∧ s.phase = .active ∧
        t = State.answered { s with reg := next (familyOf s.variant) s.reg b } 0 0) := by
  obtain ⟨he, hp⟩ | ⟨k, he, hk, hp⟩ | ⟨he, hk, hp⟩ := precheck_cases (writePhaseCause s.phase) s
    (fun s => .next (consumeInto (next (familyOf s.variant) s.reg b) s)) <;>
    simp only [execWrb, hp, Host.Outcome.next.injEq] at h
  · exact .inl ⟨he, h.symm⟩
  · exact .inr (.inl ⟨k, he, hk, h.symm⟩)
  · refine .inr (.inr ⟨he, ?_, h.symm⟩)
    revert hk; cases s.phase <;> simp [writePhaseCause]

/-- WRW: refused, a phase fault, or REG advanced by four bytes (43_slicing_engine.md R105). -/
theorem execWrw_next {d : Word} {s t : State} (h : execWrw d s = .next t) :
    (s.err = true ∧ t = s.answered 1 0) ∨
      (∃ k, s.err = false ∧ writePhaseCause s.phase = some k ∧ t = s.faulted k) ∨
      (s.err = false ∧ s.phase = .active ∧
        t = State.answered { s with reg := next4 (familyOf s.variant) s.reg d } 0 0) := by
  obtain ⟨he, hp⟩ | ⟨k, he, hk, hp⟩ | ⟨he, hk, hp⟩ := precheck_cases (writePhaseCause s.phase) s
    (fun s => .next (consumeInto (next4 (familyOf s.variant) s.reg d) s)) <;>
    simp only [execWrw, hp, Host.Outcome.next.injEq] at h
  · exact .inl ⟨he, h.symm⟩
  · exact .inr (.inl ⟨k, he, hk, h.symm⟩)
  · refine .inr (.inr ⟨he, ?_, h.symm⟩)
    revert hk; cases s.phase <;> simp [writePhaseCause]

/-- WRITE of a legal phase, after its precheck (44_dispatch_write.md R114, R115; 20_memory.md R43, R50). -/
theorem execWrite_of_active {addr : Address} {len : BitVec 32} {s : State} (he : s.err = false)
    (hp : s.phase = .active) :
    execWrite addr len s =
      if emptyBuffer addr len then .next (s.answered 0 0)
      else if bufferTouched s.touched addr len then .refused .bufferChangedDuringWrite
      else match admittedBytes s.readable s.mem addr len with
        | none => .fault .stuckWrite
        | some bytes => .next (State.answered { s with reg := consumeBuffer s bytes } 0 0) := by
  have hc : writePhaseCause s.phase = none := by rw [hp]; rfl
  unfold execWrite
  rw [hc]
  exact precheck_of_legal he

/-- WRITE: refused, a phase fault, nothing for an empty buffer, or REG advanced over the whole buffer. -/
theorem execWrite_next {addr : Address} {len : BitVec 32} {s t : State} (h : execWrite addr len s = .next t) :
    (s.err = true ∧ t = s.answered 1 0) ∨
      (∃ k, s.err = false ∧ writePhaseCause s.phase = some k ∧ t = s.faulted k) ∨
      (s.err = false ∧ s.phase = .active ∧ emptyBuffer addr len = true ∧ t = s.answered 0 0) ∨
      (∃ bytes, s.err = false ∧ s.phase = .active ∧ emptyBuffer addr len = false ∧
        bufferTouched s.touched addr len = false ∧ admittedBytes s.readable s.mem addr len = some bytes ∧
        t = State.answered { s with reg := consumeBuffer s bytes } 0 0) := by
  by_cases he : s.err = true
  · unfold execWrite at h
    rw [precheck_of_err he] at h
    cases h
    exact .inl ⟨he, rfl⟩
  · replace he : s.err = false := by simpa using he
    refine .inr ?_
    by_cases hp : s.phase = .active
    · rw [execWrite_of_active he hp] at h
      refine .inr ?_
      split at h
      · rename_i hb
        cases h
        exact .inl ⟨he, hp, hb, rfl⟩
      · rename_i hb
        split at h
        · cases h
        · rename_i ht
          split at h
          · cases h
          · rename_i bytes hbytes
            cases h
            exact .inr ⟨bytes, he, hp, by simpa using hb, by simpa using ht, hbytes, rfl⟩
    · obtain ⟨k, hk⟩ : ∃ k, writePhaseCause s.phase = some k := by
        revert hp; cases s.phase <;> simp [writePhaseCause]
      unfold execWrite at h
      rw [hk, precheck_of_cause he] at h
      cases h
      exact .inl ⟨k, he, hk, rfl⟩

/-- FINAL: refused, a phase fault, or the context finalized (45_variant_adapters.md R123). -/
theorem execFinal_next {s t : State} (h : execFinal s = .next t) :
    (s.err = true ∧ t = s.answered 1 0) ∨
      (∃ k, s.err = false ∧ finalPhaseCause s.phase = some k ∧ t = s.faulted k) ∨
      (s.err = false ∧ s.phase = .active ∧ t = (finalizeContext s).answered 0 0) := by
  obtain ⟨he, hp⟩ | ⟨k, he, hk, hp⟩ | ⟨he, hk, hp⟩ := precheck_cases (finalPhaseCause s.phase) s
    (fun s => .next ((finalizeContext s).respond 0 0)) <;>
    simp only [execFinal, hp, Host.Outcome.next.injEq] at h
  · exact .inl ⟨he, h.symm⟩
  · exact .inr (.inl ⟨k, he, hk, h.symm⟩)
  · refine .inr (.inr ⟨he, ?_, h.symm⟩)
    revert hk; cases s.phase <;> simp [finalPhaseCause]

/-- READ: refused, READ_BEFORE_FINAL, or OUT (45_variant_adapters.md R125). -/
theorem execRead_next {s t : State} (h : execRead s = .next t) :
    (s.err = true ∧ t = s.answered 1 0) ∨
      (s.err = false ∧ s.phase ≠ .finalized ∧ t = s.faulted .readBeforeFinal) ∨
      (s.err = false ∧ s.phase = .finalized ∧ t = s.answered 0 (outWord s.out)) := by
  obtain ⟨he, hp⟩ | ⟨k, he, hk, hp⟩ | ⟨he, hk, hp⟩ := precheck_cases (readPhaseCause s.phase) s
    (fun s => .next (s.respond 0 (outWord s.out))) <;>
    simp only [execRead, hp, Host.Outcome.next.injEq] at h
  · exact .inl ⟨he, h.symm⟩
  · refine .inr (.inl ⟨he, ?_, ?_⟩)
    · intro hf; rw [hf] at hk; cases hk
    · revert hk; cases s.phase <;> simp [readPhaseCause] <;> rintro rfl <;> exact h.symm
  · refine .inr (.inr ⟨he, ?_, h.symm⟩)
    revert hk; cases s.phase <;> simp [readPhaseCause]

/-- TBLRD of a legal code (41_table_generator.md R87). -/
theorem execTblrd_of_variant {v : BitVec 2} {w : Variant} (idx : BitVec 10) (s : State) (h : variantOf v = some w) :
    execTblrd v idx s =
      if s.err then .next (s.answered 1 0) else .next (s.answered 0 (entry (familyOf w) idx.toNat)) := by
  simp only [execTblrd, h]
  cases he : s.err with
  | true => exact precheck_of_err he
  | false => exact precheck_of_legal he

/-- TBLRD of the reserved code (30_encoding.md R71). -/
theorem execTblrd_of_reserved (idx : BitVec 10) (s : State) :
    execTblrd 3 idx s = if s.err then .next (s.answered 1 0) else .next (s.faulted .badVariant) :=
  execInit_of_reserved s

/-- TBLRD: refused, BAD_VARIANT, or the entry (41_table_generator.md R87). -/
theorem execTblrd_next {v : BitVec 2} {idx : BitVec 10} {s t : State} (h : execTblrd v idx s = .next t) :
    (s.err = true ∧ t = s.answered 1 0) ∨ (s.err = false ∧ v = 3 ∧ t = s.faulted .badVariant) ∨
      ∃ w, s.err = false ∧ variantOf v = some w ∧ t = s.answered 0 (entry (familyOf w) idx.toNat) := by
  cases hv : variantOf v with
  | none =>
    obtain rfl := variantOf_eq_none.mp hv
    rw [execTblrd_of_reserved] at h
    cases he : s.err <;> simp [he] at h <;> simp [← h]
  | some w =>
    rw [execTblrd_of_variant idx s hv] at h
    cases he : s.err <;> simp [he] at h <;> simp [← h]

/-- STAT always answers the status word (45_variant_adapters.md R126). -/
theorem execStat_next {s t : State} (h : execStat s = .next t) : t = s.answered 0 (statusWord s) := by
  cases h; rfl

/-- A phase cause is a fault, never NONE (60_exceptions.md R141). -/
theorem writePhaseCause_ne_none {p : Phase} {k : Cause} (h : writePhaseCause p = some k) : k ≠ .none := by
  cases p <;> simp [writePhaseCause] at h <;> subst h <;> decide

theorem finalPhaseCause_ne_none {p : Phase} {k : Cause} (h : finalPhaseCause p = some k) : k ≠ .none := by
  cases p <;> simp [finalPhaseCause] at h <;> subst h <;> decide

/-- Everything a command that answers a next state can do: it was refused, it took a misuse fault, or it had its own
effect, given here command by command. -/
theorem exec_next {i : Instr} {s t : State} (h : exec i s = .next t) :
    (s.err = true ∧ t = s.answered 1 0) ∨
    (∃ k, s.err = false ∧ k ≠ .none ∧ t = s.faulted k) ∨
    (∃ v w, i = .init v ∧ s.err = false ∧ variantOf v = some w ∧ t = (startContext w s).answered 0 0) ∨
    (∃ addr len, i = .write addr len ∧ s.err = false ∧ s.phase = .active ∧ emptyBuffer addr len = true ∧
      t = s.answered 0 0) ∨
    (∃ addr len bytes, i = .write addr len ∧ s.err = false ∧ s.phase = .active ∧ emptyBuffer addr len = false ∧
      bufferTouched s.touched addr len = false ∧ admittedBytes s.readable s.mem addr len = some bytes ∧
      t = State.answered { s with reg := consumeBuffer s bytes } 0 0) ∨
    (∃ b, i = .wrb b ∧ s.err = false ∧ s.phase = .active ∧
      t = State.answered { s with reg := next (familyOf s.variant) s.reg b } 0 0) ∨
    (∃ d, i = .wrw d ∧ s.err = false ∧ s.phase = .active ∧
      t = State.answered { s with reg := next4 (familyOf s.variant) s.reg d } 0 0) ∨
    (i = .final ∧ s.err = false ∧ s.phase = .active ∧ t = (finalizeContext s).answered 0 0) ∨
    (i = .read ∧ s.err = false ∧ s.phase = .finalized ∧ t = s.answered 0 (outWord s.out)) ∨
    (∃ v w idx, i = .tblrd v idx ∧ s.err = false ∧ variantOf v = some w ∧
      t = s.answered 0 (entry (familyOf w) idx.toNat)) ∨
    (i = .stat ∧ t = s.answered 0 (statusWord s)) := by
  cases i with
  | init v =>
    rcases execInit_next h with h | ⟨he, -, ht⟩ | ⟨w, h⟩
    · exact .inl h
    · exact .inr (.inl ⟨_, he, by decide, ht⟩)
    · exact .inr (.inr (.inl ⟨v, w, rfl, h⟩))
  | write addr len =>
    rcases execWrite_next h with h | ⟨k, he, hk, ht⟩ | h | ⟨bytes, h⟩
    · exact .inl h
    · exact .inr (.inl ⟨k, he, writePhaseCause_ne_none hk, ht⟩)
    · exact .inr (.inr (.inr (.inl ⟨addr, len, rfl, h⟩)))
    · exact .inr (.inr (.inr (.inr (.inl ⟨addr, len, bytes, rfl, h⟩))))
  | wrb b =>
    rcases execWrb_next h with h | ⟨k, he, hk, ht⟩ | h
    · exact .inl h
    · exact .inr (.inl ⟨k, he, writePhaseCause_ne_none hk, ht⟩)
    · exact .inr (.inr (.inr (.inr (.inr (.inl ⟨b, rfl, h⟩)))))
  | wrw d =>
    rcases execWrw_next h with h | ⟨k, he, hk, ht⟩ | h
    · exact .inl h
    · exact .inr (.inl ⟨k, he, writePhaseCause_ne_none hk, ht⟩)
    · exact .inr (.inr (.inr (.inr (.inr (.inr (.inl ⟨d, rfl, h⟩))))))
  | final =>
    rcases execFinal_next h with h | ⟨k, he, hk, ht⟩ | h
    · exact .inl h
    · exact .inr (.inl ⟨k, he, finalPhaseCause_ne_none hk, ht⟩)
    · exact .inr (.inr (.inr (.inr (.inr (.inr (.inr (.inl ⟨rfl, h⟩)))))))
  | read =>
    rcases execRead_next h with h | ⟨he, -, ht⟩ | h
    · exact .inl h
    · exact .inr (.inl ⟨_, he, by decide, ht⟩)
    · exact .inr (.inr (.inr (.inr (.inr (.inr (.inr (.inr (.inl ⟨rfl, h⟩))))))))
  | tblrd v idx =>
    rcases execTblrd_next h with h | ⟨he, -, ht⟩ | ⟨w, h⟩
    · exact .inl h
    · exact .inr (.inl ⟨_, he, by decide, ht⟩)
    · exact .inr (.inr (.inr (.inr (.inr (.inr (.inr (.inr (.inr (.inl ⟨v, w, idx, rfl, h⟩)))))))))
  | stat =>
    exact .inr (.inr (.inr (.inr (.inr (.inr (.inr (.inr (.inr (.inr ⟨rfl, execStat_next h⟩)))))))))

end Sys2Proof.Machine
end

