-- ==== Sys2Proof/Laws/PerInstr.lean ====
section
/-! SUPPORT. What holds of the words of every command, constructor by constructor (30_encoding.md R61, R62, R69). -/

namespace Sys2Proof.Laws.CommandWords

open Sys2Proof Sys2Proof.Machine

/-- The words of a command are a complete run: as many as OP asks for (R61), an assigned OP (R78), the reserved bits
zero (R69), and V = 3 exactly if the command is ill-formed (R71). -/
def Statement (i : Instr) : Prop :=
  ∃ cw ops, encode i = cw :: ops ∧ ops.length + 1 = commandLength cw ∧ assignedOpcode cw ∧ ¬ reservedNonzero cw ∧
    (i.wellFormed = false ↔ reservedVariantWord cw)

theorem init (v : BitVec 2) : Statement (.init v) := by
  refine ⟨_, _, rfl, ?_⟩
  revert v
  decide

theorem write (addr : Address) (len : BitVec 32) : Statement (.write addr len) :=
  ⟨_, _, rfl, by simp only [List.length, Instr.wellFormed]; decide⟩

theorem wrb (b : Byte) : Statement (.wrb b) := by
  refine ⟨_, _, rfl, ?_⟩
  revert b
  decide +kernel

theorem wrw (data : Word) : Statement (.wrw data) :=
  ⟨_, _, rfl, by simp only [List.length, Instr.wellFormed]; decide⟩

theorem final : Statement .final := ⟨_, _, rfl, by decide⟩

theorem read : Statement .read := ⟨_, _, rfl, by decide⟩

theorem tblrd (v : BitVec 2) (idx : BitVec 10) : Statement (.tblrd v idx) := by
  refine ⟨_, _, rfl, ?_⟩
  revert v idx
  decide +kernel

theorem stat : Statement .stat := ⟨_, _, rfl, by decide⟩

end Sys2Proof.Laws.CommandWords
end

