-- ==== Sys2Proof/Laws/Port.lean ====
section
/-! SUPPORT. What the port delivers and what a step does with it (30_encoding.md R61, R75). -/

namespace Sys2Proof.Machine

/-- Words the host sends are taken up to the number asked for. -/
theorem takeWords_sends (ws : List Word) (h : List HostAction) :
    takeWords ws.length (ws.map HostAction.send ++ h) = (ws, h) := by
  induction ws with
  | nil => simp [takeWords]
  | cons w ws ih => simp [takeWords, ih]

/-- Where something else than a word follows, no more is taken. -/
theorem takeWords_short (n : Nat) (ws : List Word) (h : List HostAction) (hn : ws.length ≤ n)
    (hh : ∀ w h', h ≠ HostAction.send w :: h') : takeWords n (ws.map HostAction.send ++ h) = (ws, h) := by
  induction ws generalizing n with
  | nil =>
    cases n with
    | zero => simp [takeWords]
    | succ n =>
      cases h with
      | nil => simp [takeWords]
      | cons a h =>
        cases a with
        | send w => exact absurd rfl (hh w h)
        | store _ _ => simp [takeWords]
        | setReadable _ => simp [takeWords]
        | resetInProgress => simp [takeWords]
        | reset => simp [takeWords]
  | cons w ws ih =>
    cases n with
    | zero => simp at hn
    | succ n => simp [takeWords, ih n (by simpa using hn)]

/-- A decoded command has the number of words its command word asks for (R61). -/
theorem decode_length {cw : Word} {ops : List Word} {i : Instr} (h : decode (cw :: ops) = .ok (i, [])) :
    ops.length + 1 = commandLength cw := by
  simp only [decode] at h
  split at h
  · cases h
  · rename_i hlen
    split at h
    · simp only [Except.ok.injEq, Prod.mk.injEq] at h
      have hd := congrArg List.length h.2
      simp only [List.length_drop, List.length_nil] at hd
      have : 1 ≤ commandLength cw := by unfold commandLength; split <;> [omega; split <;> omega]
      omega
    · cases h

/-- With the words of a command coming, complete together with those kept, the core receives exactly them. -/
theorem nextEvent_complete {s : State} {cw : Word} {ops ws : List Word} {h : List HostAction}
    (hne : ws ≠ []) (hs : s.rx ++ ws = cw :: ops) (hlen : ops.length + 1 = commandLength cw)
    (hh : s.host = ws.map HostAction.send ++ h) :
    nextEvent s = .received (cw :: ops)
      { s with rx := [], host := h, touched := if s.rx = [] then [] else s.touched } := by
  obtain ⟨w, ws, rfl⟩ := List.exists_cons_of_ne_nil hne
  have hhead : s.rx.headD w = cw := by
    cases hr : s.rx with
    | nil => simp [hr] at hs; simp [hs.1]
    | cons a r => simp [hr] at hs; simp [hs.1]
  have hl : commandLength cw - s.rx.length = (w :: ws).length := by
    have := congrArg List.length hs
    simp only [List.length_append, List.length_cons] at this ⊢
    omega
  have ht := takeWords_sends (w :: ws) h
  simp only [List.map_cons, List.cons_append] at hh ht
  simp only [nextEvent, hh, receive, hhead, hl, ht, hs, List.isEmpty_iff]

/-- With fewer words coming than the command has, the core receives what there is. -/
theorem nextEvent_partial {s : State} {cw : Word} {ops ws : List Word} {h : List HostAction}
    (hne : ws ≠ []) (hs : s.rx ++ ws = cw :: ops) (hlen : ops.length + 1 < commandLength cw)
    (hh : s.host = ws.map HostAction.send ++ h) (hstop : ∀ w h', h ≠ HostAction.send w :: h') :
    nextEvent s = .received (cw :: ops)
      { s with rx := [], host := h, touched := if s.rx = [] then [] else s.touched } := by
  obtain ⟨w, ws, rfl⟩ := List.exists_cons_of_ne_nil hne
  have hhead : s.rx.headD w = cw := by
    cases hr : s.rx with
    | nil => simp [hr] at hs; simp [hs.1]
    | cons a r => simp [hr] at hs; simp [hs.1]
  have hl : (w :: ws).length ≤ commandLength cw - s.rx.length := by
    have := congrArg List.length hs
    simp only [List.length_append, List.length_cons] at this ⊢
    omega
  have ht := takeWords_short (commandLength cw - s.rx.length) (w :: ws) h hl hstop
  simp only [List.map_cons, List.cons_append] at hh ht
  simp only [nextEvent, hh, receive, hhead, ht, hs, List.isEmpty_iff]

/-- What a step does with complete words, in terms of the words alone. -/
theorem step_received {s : State} {words : List Word} {t : State} (h : nextEvent s = .received words t) :
    step s = runWords words t := by
  simp [step, h]

/-- A step whose event is not a word: the core waits, or the host acted. -/
theorem step_quiet {s : State} (h : s.host = []) : step s = .next s := by
  simp [step, nextEvent, h]

theorem step_store {s : State} {a : Address} {b : Byte} {h : List HostAction} (hh : s.host = .store a b :: h) :
    step s = .next (hostStore a b { s with host := h }) := by
  simp [step, nextEvent, hh]

theorem step_setReadable {s : State} {rs : List Region} {h : List HostAction} (hh : s.host = .setReadable rs :: h) :
    step s = .next (hostSetReadable rs { s with host := h }) := by
  simp [step, nextEvent, hh]

theorem step_reset {s : State} {h : List HostAction} (hh : s.host = .reset :: h ∨ s.host = .resetInProgress :: h) :
    step s = .next (coreReset { s with host := h }) := by
  rcases hh with hh | hh <;> simp [step, nextEvent, hh]

/-- An outcome that is not a stuck WRITE stands. -/
theorem releaseStuck_of_ne {s : State} {o : StepOutcome} (h : o ≠ .fault .stuckWrite) : releaseStuck s o = o := by
  cases o with
  | next t => rfl
  | refused r => rfl
  | fault f => cases f; exact absurd rfl h

/-- No reset discards the command: only a stuck WRITE does not stand. -/
theorem finishCommand_of_false {s : State} (o : StepOutcome) (h : discardsCommand s.host = false) :
    finishCommand s o = releaseStuck s o := by
  simp [finishCommand, h]

/-- A reset discards the command, whatever its outcome would have been. -/
theorem finishCommand_of_true {s : State} (o : StepOutcome) (h : discardsCommand s.host = true) :
    finishCommand s o = awaitReset s := by
  simp [finishCommand, h]

theorem awaitReset_next {s t : State} (h : awaitReset s = .next t) : untilReset s.host s = some t := by
  unfold awaitReset at h
  split at h
  · rename_i hu
    cases h
    exact hu
  · cases h

/-- Everything a complete command that ends in a next state can do: its own outcome stands, or the core waited for a
reset of the host. -/
theorem finishCommand_next {s t : State} {o : StepOutcome} (h : finishCommand s o = .next t) :
    (discardsCommand s.host = false ∧ o = .next t) ∨
    ((discardsCommand s.host = true ∨ o = .fault .stuckWrite) ∧ untilReset s.host s = some t) := by
  cases hd : discardsCommand s.host with
  | true => exact .inr ⟨.inl rfl, awaitReset_next ((finishCommand_of_true o hd).symm.trans h)⟩
  | false =>
    rw [finishCommand_of_false o hd] at h
    by_cases ho : o = .fault .stuckWrite
    · rw [ho] at h
      exact .inr ⟨.inr ho, awaitReset_next h⟩
    · rw [releaseStuck_of_ne ho] at h
      exact .inl ⟨rfl, h⟩

/-- A stuck WRITE stays stuck if the host never pulls reset. -/
theorem untilReset_none (h : List HostAction) (s : State) (hn : HostAction.reset ∉ h)
    (hp : HostAction.resetInProgress ∉ h) : untilReset h s = none := by
  induction h generalizing s with
  | nil => rfl
  | cons a h ih =>
    have ih := fun s => ih s (fun hm => hn (List.mem_cons_of_mem _ hm)) (fun hm => hp (List.mem_cons_of_mem _ hm))
    cases a with
    | send w => exact ih s
    | store a b => exact ih _
    | setReadable rs => exact ih _
    | reset => exact absurd (List.mem_cons_self ..) hn
    | resetInProgress => exact absurd (List.mem_cons_self ..) hp

/-- The state after the core waited for a reset: reset, with the parameters and the responses of before. -/
theorem untilReset_some {h : List HostAction} {s t : State} (hu : untilReset h s = some t) :
    t.phase = .idle ∧ t.variant = .crc32 ∧ t.backend = .none ∧ t.err = false ∧ t.cause = .none ∧ t.rx = [] ∧
      t.caps = s.caps ∧ t.backends = s.backends ∧ t.responses = s.responses := by
  induction h generalizing s with
  | nil => cases hu
  | cons a h ih =>
    cases a with
    | send w => exact ih hu
    | store a b => simpa using ih hu
    | setReadable rs => simpa using ih hu
    | reset => cases hu; simp
    | resetInProgress => cases hu; simp

/-- The host's memory stays canonical up to the reset. -/
theorem untilReset_mem_wf {h : List HostAction} {s t : State} (hu : untilReset h s = some t)
    (hm : Memory.wf s.mem = true) : Memory.wf t.mem = true := by
  induction h generalizing s with
  | nil => cases hu
  | cons a h ih =>
    cases a with
    | send w => exact ih hu hm
    | store a b => exact ih hu (by simpa using Memory.wf_write _ a b hm)
    | setReadable rs => exact ih hu hm
    | reset => cases hu; exact hm
    | resetInProgress => cases hu; exact hm

/-- Up to the first reset the host's changes of its memory and of Readable happen and nothing else does. -/
theorem untilReset_append {before after : List HostAction} {pull : HostAction}
    (hp : pull = .reset ∨ pull = .resetInProgress) (hr : HostAction.reset ∉ before)
    (hi : HostAction.resetInProgress ∉ before) (s : State) :
    ∃ t, untilReset (before ++ pull :: after) s = some t ∧ t.host = after ∧ t.mem = memoryAfter before s.mem ∧
      t.readable = readableAfter before s.readable := by
  induction before generalizing s with
  | nil => rcases hp with rfl | rfl <;> exact ⟨_, rfl, rfl, rfl, rfl⟩
  | cons a h ih =>
    have ih := fun s => ih (fun hm => hr (List.mem_cons_of_mem _ hm)) (fun hm => hi (List.mem_cons_of_mem _ hm)) s
    cases a with
    | send w => exact ih s
    | store x b => exact ih (hostStore x b s)
    | setReadable rs => exact ih (hostSetReadable rs s)
    | reset => exact absurd (List.mem_cons_self ..) hr
    | resetInProgress => exact absurd (List.mem_cons_self ..) hi

/-- The host's changes of its memory and of Readable may stand before the reset that discards the command. -/
theorem discardsCommand_append {before after : List HostAction}
    (h : ∀ a ∈ before, (∃ x b, a = .store x b) ∨ ∃ rs, a = .setReadable rs) :
    discardsCommand (before ++ .resetInProgress :: after) = true := by
  induction before with
  | nil => rfl
  | cons a l ih =>
    have ih := ih fun b hb => h b (List.mem_cons_of_mem _ hb)
    obtain ⟨x, b, rfl⟩ | ⟨rs, rfl⟩ := h a (List.mem_cons_self ..) <;> exact ih

/-- A reset that discards the command is there to be waited for. -/
theorem untilReset_of_discards {h : List HostAction} (hd : discardsCommand h = true) (s : State) :
    ∃ t, untilReset h s = some t := by
  induction h generalizing s with
  | nil => cases hd
  | cons a h ih =>
    cases a with
    | send w => cases hd
    | store a b => exact ih hd _
    | setReadable rs => exact ih hd _
    | reset => cases hd
    | resetInProgress => exact ⟨_, rfl⟩

/-- Everything a step that answers a next state can do: wait, a change of the host's memory or of Readable, a reset, or
words received. `u` is the state without the words, `ws` are the words taken now. -/
theorem step_next {s t : State} (h : step s = .next t) :
    (s.host = [] ∧ t = s) ∨
    (∃ addr b h', s.host = .store addr b :: h' ∧ t = hostStore addr b { s with host := h' }) ∨
    (∃ rs h', s.host = .setReadable rs :: h' ∧ t = hostSetReadable rs { s with host := h' }) ∨
    (∃ h', (s.host = .reset :: h' ∨ s.host = .resetInProgress :: h') ∧ t = coreReset { s with host := h' }) ∨
    (∃ w h' n ws h'', s.host = .send w :: h' ∧ n = commandLength (s.rx.headD w) - s.rx.length ∧
      (ws, h'') = takeWords n s.host ∧
      let u := { s with rx := [], host := h'', touched := if s.rx = [] then [] else s.touched }
      ((decode (s.rx ++ ws) = .error .incomplete ∧ t = { u with rx := s.rx ++ ws }) ∨
        (∃ k, k ≠ .none ∧ discardsCommand h'' = false ∧ t = misuse k u) ∨
        (∃ i r, decode (s.rx ++ ws) = .ok (i, r) ∧ discardsCommand h'' = false ∧ exec i u = .next t) ∨
        (decode (s.rx ++ ws) ≠ .error .incomplete ∧ untilReset h'' u = some t ∧
          (discardsCommand h'' = true ∨
            ∃ i r, decode (s.rx ++ ws) = .ok (i, r) ∧ exec i u = .fault .stuckWrite)))) := by
  cases hh : s.host with
  | nil =>
    rw [step_quiet hh] at h
    cases h
    exact .inl ⟨rfl, rfl⟩
  | cons a h' =>
    cases a with
    | store addr b =>
      rw [step_store hh] at h
      cases h
      exact .inr (.inl ⟨addr, b, h', rfl, rfl⟩)
    | setReadable rs =>
      rw [step_setReadable hh] at h
      cases h
      exact .inr (.inr (.inl ⟨rs, h', rfl, rfl⟩))
    | reset =>
      rw [step_reset (.inl hh)] at h
      cases h
      exact .inr (.inr (.inr (.inl ⟨h', .inl rfl, rfl⟩)))
    | resetInProgress =>
      rw [step_reset (.inr hh)] at h
      cases h
      exact .inr (.inr (.inr (.inl ⟨h', .inr rfl, rfl⟩)))
    | send w =>
      refine .inr (.inr (.inr (.inr ⟨w, h', _, _, _, rfl, rfl, rfl, ?_⟩)))
      simp only [step, nextEvent, hh, receive, List.isEmpty_iff, runWords] at h
      split at h
      · rename_i e hd
        cases hc : decodeCause e with
        | none =>
          simp only [hc] at h
          cases h
          cases e <;> simp [decodeCause] at hc
          exact .inl ⟨hd, rfl⟩
        | some k =>
          simp only [hc] at h
          have hk : k ≠ .none ∧ e ≠ .incomplete := by
            cases e <;> simp [decodeCause] at hc <;> subst hc <;> decide
          rcases finishCommand_next h with ⟨hf, ht⟩ | ⟨hf | hf, ht⟩
          · cases ht
            exact .inr (.inl ⟨k, hk.1, hf, rfl⟩)
          · exact .inr (.inr (.inr ⟨by rw [hd]; simpa using hk.2, ht, .inl hf⟩))
          · cases hf
      · rename_i i r hd
        rcases finishCommand_next h with ⟨hf, ht⟩ | ⟨hf, ht⟩
        · exact .inr (.inr (.inl ⟨i, r, hd, hf, ht⟩))
        · exact .inr (.inr (.inr ⟨by rw [hd]; simp, ht, hf.imp id fun hs => ⟨i, r, hd, hs⟩⟩))

end Sys2Proof.Machine
end

