-- ==== Sys2Proof/Laws/Tables.lean ====
section
/-! SUPPORT. The steps of the table generator are linear over GF(2) (41_table_generator.md R86), and a table index
splits into slice and byte. -/

namespace Sys2Proof.Machine

/-- Folding the polynomial in twice cancels. -/
theorem xor_polynomial_twice (a b p : Word) : a ^^^ p ^^^ (b ^^^ p) = a ^^^ b := by
  rw [BitVec.xor_assoc, BitVec.xor_comm b p, ← BitVec.xor_assoc p p b, BitVec.xor_self, BitVec.zero_xor]

theorem shiftRight32_xor (a b : Word) : shiftRight32 (a ^^^ b) = shiftRight32 a ^^^ shiftRight32 b := by
  unfold shiftRight32
  rw [BitVec.getLsbD_xor, BitVec.ushiftRight_xor_distrib]
  cases a.getLsbD 0 <;> cases b.getLsbD 0 <;> simp [xor_polynomial_twice] <;> ac_rfl

theorem shiftLeft24_xor (a b : Word) : shiftLeft24 (a ^^^ b) = shiftLeft24 a ^^^ shiftLeft24 b := by
  unfold shiftLeft24
  rw [BitVec.getLsbD_xor, BitVec.shiftLeft_xor_distrib]
  cases a.getLsbD 31 <;> cases b.getLsbD 31 <;> simp [xor_polynomial_twice] <;> ac_rfl

theorem repeatTimes_xor {f : Word → Word} (hf : ∀ a b, f (a ^^^ b) = f a ^^^ f b) (n : Nat) (a b : Word) :
    repeatTimes f n (a ^^^ b) = repeatTimes f n a ^^^ repeatTimes f n b := by
  induction n generalizing a b with
  | zero => rfl
  | succ n ih => simp only [repeatTimes, hf, ih]

@[simp] theorem byteAt_xor (k : Nat) (a b : Word) : byteAt k (a ^^^ b) = byteAt k a ^^^ byteAt k b := by
  simp [byteAt, BitVec.extractLsb'_xor]

/-- bswap32 moves bit i of byte k to bit i of byte 3 - k (00_scope.md R9). -/
theorem getLsbD_bswap32 (v : Word) (i : Nat) (hi : i < 32) :
    (bswap32 v).getLsbD i = v.getLsbD (24 - 8 * (i / 8) + i % 8) := by
  interval_cases i <;> simp [bswap32, byteAt]

theorem bswap32_xor (a b : Word) : bswap32 (a ^^^ b) = bswap32 a ^^^ bswap32 b := by
  apply BitVec.eq_of_getLsbD_eq
  intro i hi
  simp only [BitVec.getLsbD_xor, getLsbD_bswap32 _ i hi]

/-- Reversing the bytes twice gives the value back. -/
theorem bswap32_bswap32 (v : Word) : bswap32 (bswap32 v) = v := by
  apply BitVec.eq_of_getLsbD_eq
  intro i hi
  rw [getLsbD_bswap32 _ i hi, getLsbD_bswap32 _ _ (by omega)]
  congr 1
  omega

/-- Slice 0 of both tables is linear (R86 (b)). -/
theorem slice0_xor (t : Family) (a b : Byte) : slice0 t (a ^^^ b) = slice0 t a ^^^ slice0 t b := by
  cases t with
  | f32 =>
    simp only [slice0, BitVec.setWidth_xor]
    exact repeatTimes_xor shiftRight32_xor 8 _ _
  | f24 =>
    simp only [slice0, BitVec.setWidth_xor, BitVec.shiftLeft_xor_distrib]
    rw [repeatTimes_xor shiftLeft24_xor, bswap32_xor]

/-- A table index is a slice and a byte (R80). -/
theorem entry_slice (t : Family) (k : Nat) (i : Byte) : entry t (256 * k + i.toNat) = slice t k i := by
  have h := i.isLt
  unfold entry
  rw [show (256 * k + i.toNat) / 256 = k by omega]
  congr 1
  apply BitVec.eq_of_toNat_eq
  simp only [BitVec.toNat_ofNat]
  omega

@[simp] theorem entry_byte (t : Family) (i : Byte) : entry t i.toNat = slice0 t i := by
  simpa [slice] using entry_slice t 0 i

/-- The scalar step reads slice 0 (42_scalar_engine.md R90). -/
theorem next_eq (t : Family) (c : Word) (b : Byte) : next t c b = (c >>> 8) ^^^ slice0 t (byteAt 0 c ^^^ b) := by
  unfold next
  rw [entry_byte]

/-- The slicing step reads slices 3, 2, 1 and 0 (43_slicing_engine.md R100). -/
theorem next4_eq (t : Family) (c w : Word) :
    next4 t c w = slice t 3 (byteAt 0 (c ^^^ w)) ^^^ slice t 2 (byteAt 1 (c ^^^ w)) ^^^
      slice t 1 (byteAt 2 (c ^^^ w)) ^^^ slice t 0 (byteAt 3 (c ^^^ w)) := by
  have e : ∀ k (i : Byte), entry t (i.toNat + 256 * k) = slice t k i := fun k i => by
    rw [Nat.add_comm, entry_slice]
  unfold next4
  rw [← e 3, ← e 2, ← e 1, ← e 0]
  rfl

end Sys2Proof.Machine
end

