-- ==== Sys2Proof/Tests/Slice0.lean ====
section
/-! SUPPORT. Tests of the model, and a witness for the hypotheses of each statement.
Expected values: spec/95_test_vectors.md, whose vector each comment names. -/

namespace Sys2Proof.Tests

open Sys2Proof Sys2Proof.Machine

/-! ## Small states and views -/

/-- A running context after reset. -/
def running (v : Variant) (r : Word) : State :=
  { State.reset with phase := .active, variant := v, reg := r }

/-- A finalized context after reset. -/
def finished (v : Variant) (r : Word) (o : OutBuffer) : State :=
  { State.reset with phase := .finalized, variant := v, reg := r, out := o }

/-- A core that has taken a misuse fault in IDLE. -/
def failed (k : Cause) : State := { State.reset with err := true, cause := k }

/-- "123456789" at 0x1000 (P1). -/
def digits : Memory :=
  [(0x1000, 0x31), (0x1001, 0x32), (0x1002, 0x33), (0x1003, 0x34), (0x1004, 0x35), (0x1005, 0x36), (0x1006, 0x37),
    (0x1007, 0x38), (0x1008, 0x39)]

/-- The nine digits are readable and nothing else is. -/
def digitsReadable : List Region := [⟨0x1000, 9⟩]

/-- The state with the nine digits in a readable memory. -/
def withDigits (s : State) : State := { s with mem := digits, readable := digitsReadable }

/-- The state with a readable byte "1" at the last address (V5.28) and nothing else. -/
def withLastByte (s : State) : State := { s with mem := [(0xFFFFFFFF, 0x31)], readable := [⟨0xFFFFFFFF, 1⟩] }

/-- The state with this host. -/
def hostDoes (h : List HostAction) (s : State) : State := { s with host := h }

/-- The state after a step that has one. -/
def after : StepOutcome → Option State
  | .next t => some t
  | .fault _ => none
  | .refused _ => none

/-- REG after a step. -/
def regOf (o : StepOutcome) : Option Word := (after o).map State.reg

/-- The last response after a step. -/
def answerOf (o : StepOutcome) : Option Response := (after o).bind fun t => t.responses.getLast?

/-- ERR, CAUSE and PHASE after a step. -/
def faultOf (o : StepOutcome) : Option (Bool × Cause × Phase) := (after o).map fun t => (t.err, t.cause, t.phase)

/-! ## Well-formedness -/

/-- V = 3 is reserved in INIT (30_encoding.md R71). -/
theorem test_wellFormed_refuses_init_3 : (Instr.init 3).wellFormed = false := by decide
/-- V = 3 is reserved in TBLRD (R71). -/
theorem test_wellFormed_refuses_tblrd_3 : (Instr.tblrd 3 0).wellFormed = false := by decide
theorem test_wellFormed_accepts_variants :
    (Instr.init 0).wellFormed = true ∧ (Instr.init 2).wellFormed = true ∧ (Instr.tblrd 2 1023).wellFormed = true := by
  decide

/-! ## Decoding: words from the format table of 30_encoding.md R62 -/

/-- V6.4. -/
theorem test_decode_init : decode [0x01000002] = .ok (.init 2, []) := by rfl
/-- P4, step 2. -/
theorem test_decode_write : decode [0x02000000, 0x00003001, 0x00000015] = .ok (.write 0x3001 21, []) := by rfl
/-- V3.12. -/
theorem test_decode_wrb : decode [0x03000031] = .ok (.wrb 0x31, []) := by rfl
/-- V4.11. -/
theorem test_decode_wrw : decode [0x04000000, 0x34333231] = .ok (.wrw 0x34333231, []) := by rfl
/-- V6.7. -/
theorem test_decode_final : decode [0x05000000] = .ok (.final, []) := by rfl
/-- V6.9. -/
theorem test_decode_read : decode [0x06000000] = .ok (.read, []) := by rfl
/-- V2.5: V = 2, IDX = 1023. -/
theorem test_decode_tblrd : decode [0x07000BFF] = .ok (.tblrd 2 1023, []) := by rfl
/-- V6.1. -/
theorem test_decode_stat : decode [0x08000000] = .ok (.stat, []) := by rfl
/-- V7.1, V7.2. -/
theorem test_decode_reserved_opcodes :
    decode [0x00000000] = .error .illegalOpcode ∧ decode [0x09000000] = .error .illegalOpcode := by exact ⟨rfl, rfl⟩
/-- V6.6, V3.16, V2.9, V6.18: the lowest reserved bit of INIT, WRB, TBLRD, STAT. -/
theorem test_decode_reserved_bits :
    decode [0x01000004] = .error .reservedField ∧ decode [0x03000100] = .error .reservedField ∧
    decode [0x07001000] = .error .reservedField ∧ decode [0x08000001] = .error .reservedField := by
  exact ⟨rfl, rfl, rfl, rfl⟩
/-- R61, R75: a WRITE with two of its three words. -/
theorem test_decode_incomplete : decode [0x02000000, 0x00000001] = .error .incomplete := by rfl

/-! ## The tables -/

/-- Section 2: TAB32[0x001], TAB32[0x101], TAB32[0x201], TAB32[0x3FF]. -/
theorem test_entries_of_tab32 :
    entry .f32 0x001 = 0x77073096#32 ∧ entry .f32 0x101 = 0x191B3141#32 ∧ entry .f32 0x201 = 0x01C26A37#32 ∧
    entry .f32 0x3FF = 0xDE0506F1#32 := by decide +kernel
/-- Section 2: TAB24[0x080], TAB24[0x1FF], TAB24[0x2FF], TAB24[0x301]. -/
theorem test_entries_of_tab24 :
    entry .f24 0x080 = 0x00A44733#32 ∧ entry .f24 0x1FF = 0x00DCB9DE#32 ∧ entry .f24 0x2FF = 0x002AC4EE#32 ∧
    entry .f24 0x301 = 0x00520936#32 := by decide +kernel
/-- V4.1, V4.3: the source's form differs for TAB32. -/
theorem test_source_form_differs :
    next4Src24 .f32 0xFFFFFFFF 0x34333231 = 0x491EF0D1#32 ∧ next4 .f32 0xFFFFFFFF 0xFFFFFFFF = 0 := by decide +kernel
/-- V5.10, V5.12: all three tiers, bytes(0..20). -/
theorem test_tiers_of_21_bytes :
    updTier .f32 0xFFFFFFFF ((List.range 21).map (BitVec.ofNat 8)) = 0xE6A77E01#32 ∧
    updTier .f24 0x00CE04B7 ((List.range 21).map (BitVec.ofNat 8)) = 0x00FE8297#32 := by decide +kernel

/-! ## One step of each instruction -/

/-- V6.2. -/
theorem test_init_crc32 :
    (after (exec (.init 0) State.reset)).map (fun t => (t.phase, t.variant, t.reg)) =
      some (.active, .crc32, 0xFFFFFFFF#32) := by decide +kernel
/-- V6.11: a new context; OUT is kept. -/
theorem test_init_after_final :
    (after (exec (.init 2) (finished .crc32 0xCBF43926 ⟨0xCB, 0xF4, 0x39, 0x26⟩))).map
      (fun t => (t.phase, t.variant, t.reg, t.out)) =
      some (.active, .crc24Rfc2440, 0x00CE04B7#32, ⟨0xCB, 0xF4, 0x39, 0x26⟩) := by decide +kernel
/-- V5.1. -/
theorem test_write_digits :
    regOf (exec (.write 0x1000 9) (withDigits (running .crc32 0xFFFFFFFF))) = some 0x340BC6D9#32 := by
  decide +kernel
/-- V5.28: ADDR + LEN = 2^32 is admitted. -/
theorem test_write_last_byte :
    regOf (exec (.write 0xFFFFFFFF 1) (withLastByte (running .crc32 0xFFFFFFFF))) = some 0x7C231048#32 := by
  decide +kernel
/-- V3.13. -/
theorem test_wrb_crc24 : regOf (exec (.wrb 0x31) (running .crc24Rfc2440 0x00CE04B7)) = some 0x0048BA2E#32 := by
  decide +kernel
/-- V3.17: after FINAL. -/
theorem test_wrb_after_final :
    faultOf (exec (.wrb 0) (finished .crc32 0 ⟨0, 0, 0, 0⟩)) = some (true, .writeAfterFinal, .finalized) := by
  decide +kernel
/-- V4.11. -/
theorem test_wrw_crc32 : regOf (exec (.wrw 0x34333231) (running .crc32 0xFFFFFFFF)) = some 0x641C1F5C#32 := by
  decide +kernel
/-- V4.13. -/
theorem test_wrw_crc24 : regOf (exec (.wrw 0x34333231) (running .crc24Rfc2440 0x00CE04B7)) = some 0x0043D3A2#32 := by
  decide +kernel
/-- V6.7. -/
theorem test_final_crc32 :
    (after (exec .final (running .crc32 0x340BC6D9))).map (fun t => (t.phase, t.reg, t.out)) =
      some (.finalized, 0xCBF43926#32, ⟨0xCB, 0xF4, 0x39, 0x26⟩) := by decide +kernel
/-- V6.8. -/
theorem test_final_crc24 :
    (after (exec .final (running .crc24Rfc2440 0x0002CF21))).map (fun t => (t.phase, t.reg, t.out)) =
      some (.finalized, 0x0002CF21#32, ⟨0x21, 0xCF, 0x02, 0x00⟩) := by decide +kernel
/-- V6.10. -/
theorem test_read_crc24 :
    answerOf (exec .read (finished .crc24Rfc2440 0x0002CF21 ⟨0x21, 0xCF, 0x02, 0x00⟩)) = some ⟨0, 0x21CF0200⟩ := by
  decide +kernel
/-- V6.14. -/
theorem test_read_before_final :
    faultOf (exec .read (running .crc32 0xFFFFFFFF)) = some (true, .readBeforeFinal, .active) := by decide +kernel
/-- V2.2: V = 1 reads TAB32. -/
theorem test_tblrd_shares_tab32 : answerOf (exec (.tblrd 1 1) State.reset) = some ⟨0, 0x77073096⟩ := by decide +kernel
/-- V2.5. -/
theorem test_tblrd_last : answerOf (exec (.tblrd 2 1023) State.reset) = some ⟨0, 0x004AAD5A⟩ := by decide +kernel
/-- V6.8: the status word of a finalized CRC-24 context. -/
theorem test_stat_finalized :
    answerOf (exec .stat (finished .crc24Rfc2440 0x0002CF21 ⟨0x21, 0xCF, 0x02, 0x00⟩)) = some ⟨0, 0x0003000A⟩ := by
  decide +kernel
/-- V6.14: the status word after READ in ACTIVE. -/
theorem test_stat_after_fault :
    answerOf (exec .stat { running .crc32 0xFFFFFFFF with err := true, cause := .readBeforeFinal }) =
      some ⟨0, 0x00047101⟩ := by decide +kernel

/-! ## The port -/

/-- V7.1. -/
theorem test_step_zero_word :
    faultOf (step (hostDoes [.send 0] State.reset)) = some (true, .illegalOpcode, .idle) := by decide +kernel
/-- V7.4: RESERVED_FIELD beats NOT_INITIALIZED, and all three words are consumed. -/
theorem test_step_reserved_beats_phase :
    (after (step (hostDoes [.send 0x02000100, .send 1, .send 1] State.reset))).map (fun t => (t.cause, t.host, t.rx)) =
      some (.reservedField, [], []) := by decide +kernel
/-- V5.29: the same in ACTIVE. -/
theorem test_step_reserved_write :
    (after (step (hostDoes [.send 0x02000001, .send 0x1000, .send 4] (running .crc32 0)))).map
      (fun t => (t.cause, t.host, t.reg)) = some (.reservedField, [], 0#32) := by decide +kernel
/-- V7.11. -/
theorem test_step_reset_clears :
    faultOf (step (hostDoes [.reset] (failed .badVariant))) = some (false, .none, .idle) := by decide +kernel
/-- V5.26: only 0x10 is readable; the host has stored to 0x11 too, which does not make it readable (20_memory.md R41). -/
theorem test_step_stuck :
    step (hostDoes [.send 0x02000000, .send 0x10, .send 2]
      { running .crc32 0xFFFFFFFF with mem := [(0x10, 1), (0x11, 2)], readable := [⟨0x10, 1⟩] }) =
      .fault .stuckWrite := by rfl
/-- 70_reset_and_hazards.md R170: a reset in progress discards the FINAL before it, with its response. -/
theorem test_step_reset_in_progress :
    (after (step (hostDoes [.send 0x05000000, .resetInProgress, .send 0] (running .crc32 0)))).map
      (fun t => (t.phase, t.responses, t.host)) = some (.idle, [], [.send 0]) := by decide +kernel
/-- V5.27: ADDR + LEN passes 2^32. -/
theorem test_step_stuck_past_the_end :
    step (hostDoes [.send 0x02000000, .send 0xFFFFFFFF, .send 2] (withLastByte (running .crc32 0))) =
      .fault .stuckWrite := by rfl
/-- The host's numbering: bits 63:32 are the second word. -/
theorem test_decodeTableWord : decodeTableWord 64 0x3433323104000000 = some (.wrw 0x34333231) := by decide +kernel
/-- An operand word the table gives no bits is zero. -/
theorem test_withFetchWord :
    (after (step (State.reset.withFetchWord 32 0x02000000))).map (fun t => (t.cause, t.host)) =
      some (.notInitialized, []) := by decide +kernel

/-! ## The assembler -/

/-- P4, the first two lines. -/
theorem test_assemble_lines :
    assemble "init crc32 ; comment\nwrite  0x3001, 21\n".toList =
      some [0x01000000, 0x02000000, 0x00003001, 0x00000015] := by decide +kernel
/-- P5: `tblrd crc24rfc2440, 3:255`; and a byte of 256 is an error (30_encoding.md R76). -/
theorem test_assemble_fields :
    assemble "tblrd crc24rfc2440, 3:255".toList = some [0x07000BFF] ∧ assemble "wrb 256".toList = none := by
  decide +kernel
/-- P2: `wrbytes` of nine bytes. -/
theorem test_assemble_wrbytes :
    assemble "wrbytes 0x31, 0x32, 0x33, 0x34, 0x35, 0x36, 0x37, 0x38, 0x39".toList =
      some [0x04000000, 0x34333231, 0x04000000, 0x38373635, 0x03000039] := by decide +kernel

/-! ## Witnesses: states and operands that meet all the hypotheses of a statement, each clause at a boundary -/

/-- CRC-24 right after INIT, "123456789" at 0x1000, no backend. -/
def ready24 : State := withDigits (running .crc24Rfc2440 0x00CE04B7)

/-- CRC-32 bound to backend 1 of two, of which the first needs a flag that is absent. -/
def ready32 : State :=
  { withDigits (running .crc32 0xFFFFFFFF) with
    caps := 2, backends := [⟨.f32, 3, true⟩, ⟨.f32, 2, true⟩], backend := .accel 1 }

/-- CRC-24 finalized (V6.8). -/
def done24 : State := finished .crc24Rfc2440 0x0002CF21 ⟨0x21, 0xCF, 0x02, 0x00⟩

/-- CRC-32 finalized (V6.7). -/
def done32 : State := finished .crc32 0xCBF43926 ⟨0xCB, 0xF4, 0x39, 0x26⟩

/-- No word of a command is kept. -/
theorem nothing_partial {s : State} (h : s.rx = []) :
    ∀ cw ops, s.rx = cw :: ops → ops.length + 1 < commandLength cw := by
  intro _ _ e; simp [h] at e

theorem ready24_inv : ready24.Inv :=
  ⟨by decide +kernel, by decide, by decide, by decide, by decide, by decide, nothing_partial rfl⟩

theorem ready32_inv : ready32.Inv :=
  ⟨by decide +kernel, by decide, by decide, by decide, by decide, by decide, nothing_partial rfl⟩

theorem done24_inv : done24.Inv :=
  ⟨by decide, by decide, by decide, by decide, by decide, by decide, nothing_partial rfl⟩

theorem done32_inv : done32.Inv :=
  ⟨by decide, by decide, by decide, by decide, by decide, by decide, nothing_partial rfl⟩

/-- The nine digits as the bytes of [0x1000, 0x1009). -/
theorem digits_hold :
    holdsBytes digitsReadable digits 0x1000 9 [0x31, 0x32, 0x33, 0x34, 0x35, 0x36, 0x37, 0x38, 0x39] := by
  unfold holdsBytes; decide +kernel

/-- A buffer that ends at 2^32. -/
theorem lastByte_holds : holdsBytes [⟨0xFFFFFFFF, 1⟩] [(0xFFFFFFFF, 0x31)] 0xFFFFFFFF 1 [0x31] := by unfold holdsBytes; decide +kernel

/-- Nothing was stored into any buffer. -/
theorem untouched_of_nil {s : State} {a : Address} {n : BitVec 32} (h : s.touched = []) : untouched s a n := by
  simp [untouched, h]

theorem witness_EncodeOfDecode :
    decode [0x07000BFF, 0x08000000] = .ok (.tblrd 2 1023, [0x08000000]) ∧
    decode [0x02000000, 0xFFFFFFFF, 0xFFFFFFFF] = .ok (.write 0xFFFFFFFF 0xFFFFFFFF, []) := ⟨rfl, rfl⟩

/-- A word of each kind: (a), (b) by a reserved bit, (b) by V = 3, (c). -/
theorem witness_EveryWordIsOneKind :
    ([] : List Word).length + 1 = commandLength 0x07000BFF ∧ ¬ reservedNonzero 0x07000BFF ∧
    [0x1000#32, 0x4#32].length + 1 = commandLength 0x02000001 ∧ reservedNonzero 0x02000001 ∧
    ([] : List Word).length + 1 = commandLength 0x07000C00 ∧ reservedVariantWord 0x07000C00 ∧
    ([] : List Word).length + 1 = commandLength 0x09000000 ∧ ¬ assignedOpcode 0x09000000 := by decide

/-- A WRITE that is not stuck, one that is, and one that a reset discards. -/
theorem witness_StepRunsTheDecodedCommand :
    (let s := hostDoes [.send 0x02000000, .send 0x1000, .send 9, .send 0x05000000] ready24;
      decode [0x02000000, 0x1000, 9] = .ok (.write 0x1000 9, []) ∧ s.rx = [] ∧
      s.host = [0x02000000, 0x1000, 9].map HostAction.send ++ [.send 0x05000000] ∧
      discardsCommand [.send 0x05000000] = false ∧
      exec (.write 0x1000 9) { s with host := [.send 0x05000000], touched := [] } ≠ .fault .stuckWrite) ∧
    (let s := hostDoes [.send 0x02000000, .send 0x1000, .send 10] ready24;
      decode [0x02000000, 0x1000, 10] = .ok (.write 0x1000 10, []) ∧ s.rx = [] ∧
      s.host = [0x02000000, 0x1000, 10].map HostAction.send ++ [] ∧
      exec (.write 0x1000 10) { s with host := [], touched := [] } = .fault .stuckWrite) ∧
    (let s := hostDoes [.send 0x05000000, .resetInProgress] ready24;
      decode [0x05000000] = .ok (.final, []) ∧ s.rx = [] ∧
      s.host = [0x05000000].map HostAction.send ++ [.resetInProgress] ∧
      discardsCommand [.resetInProgress] = true) := by
  refine ⟨⟨rfl, rfl, rfl, rfl, fun h => ?_⟩, ⟨rfl, rfl, rfl, rfl⟩, rfl, rfl, rfl, rfl⟩
  exact absurd (congrArg after h) (by decide +kernel)

/-- The host is quiet; one word of three is there and a second comes; the third comes; an OP that is none. -/
theorem witness_PartialCommandWaits :
    State.reset.host = [] ∧
    (let s : State := { ready24 with rx := [0x02000000], host := [.send 0x1000, .reset] };
      s.rx ++ [0x1000] = 0x02000000 :: [0x1000] ∧ [0x1000#32].length + 1 < commandLength 0x02000000 ∧
      s.host = [0x1000].map HostAction.send ++ [.reset] ∧
      ∀ w h', [HostAction.reset] ≠ HostAction.send w :: h') ∧
    (let s : State := { ready24 with rx := [0x02000000, 0x1000], host := [.send 9] };
      s.rx ++ [9] = 0x02000000 :: [0x1000, 9] ∧ [0x1000#32, 9#32].length + 1 = commandLength 0x02000000 ∧
      decode (0x02000000 :: [0x1000, 9]) = .ok (.write 0x1000 9, []) ∧
      s.host = [9].map HostAction.send ++ []) ∧
    (let s : State := { ready24 with rx := [0x02000001, 0x1000], host := [.send 9] };
      s.rx ++ [9] = 0x02000001 :: [0x1000, 9] ∧ [0x1000#32, 9#32].length + 1 = commandLength 0x02000001 ∧
      decode (0x02000001 :: [0x1000, 9]) = .error .reservedField ∧ decodeCause .reservedField = some .reservedField ∧
      s.host = [9].map HostAction.send ++ []) := by
  refine ⟨rfl, ⟨rfl, by decide, rfl, fun w h' e => ?_⟩, ⟨rfl, by decide, rfl, rfl⟩, rfl, by decide, rfl, rfl, rfl⟩
  exact absurd (List.cons.inj e).1 (by simp)

/-- The commands of P1, from reset. -/
theorem witness_QueuedCommandsRunInOrder :
    (let s : State := withDigits State.reset;
      s.rx = [] ∧ s.touched = [] ∧ s.host = [] ∧
      (after (execAll [.init 0, .write 0x1000 9, .final, .read, .stat] s)).isSome = true) := by decide +kernel

/-- A complete command for each verdict. -/
theorem witness_PrecheckInOrder :
    (let s := hostDoes [.send 0x01000000] (failed .badVariant);
      ([] : List Word).length + 1 = commandLength 0x01000000 ∧ s.rx = [] ∧
      s.host = [0x01000000].map HostAction.send ++ [] ∧ discardsCommand [] = false ∧
      precheckVerdict 0x01000000 s.phase s.err = .refused) ∧
    (let s := hostDoes [.send 0x02000100, .send 1, .send 1, .store 0 0, .reset] State.reset;
      [1#32, 1#32].length + 1 = commandLength 0x02000100 ∧ s.rx = [] ∧
      s.host = [0x02000100, 1, 1].map HostAction.send ++ [.store 0 0, .reset] ∧
      discardsCommand [.store 0 0, .reset] = false ∧
      precheckVerdict 0x02000100 s.phase s.err = .fault .reservedField) ∧
    (let s := hostDoes [.send 0x08000000] (failed .badVariant);
      ([] : List Word).length + 1 = commandLength 0x08000000 ∧ s.rx = [] ∧
      s.host = [0x08000000].map HostAction.send ++ [] ∧ discardsCommand [] = false ∧
      precheckVerdict 0x08000000 s.phase s.err = .runs) ∧
    precheckVerdict 0x00000000 .active false = .fault .illegalOpcode ∧
    precheckVerdict 0x07000C00 .idle false = .fault .badVariant ∧
    precheckVerdict 0x05000000 .idle false = .fault .notInitialized ∧
    precheckVerdict 0x04000000 .finalized false = .fault .writeAfterFinal ∧
    precheckVerdict 0x05000000 .finalized false = .fault .finalTwice ∧
    precheckVerdict 0x06000000 .active false = .fault .readBeforeFinal := by decide +kernel

/-- OP = 0x00, 0x09 and 0xFF. -/
theorem witness_ReservedOpcodeFaults :
    (opcode 0x00000000 = 0x00#8 ∨ 0x09#8 ≤ opcode 0x00000000) ∧
    (opcode 0x09000000 = 0x00#8 ∨ 0x09#8 ≤ opcode 0x09000000) ∧
    (opcode 0xFFFFFFFF = 0x00#8 ∨ 0x09#8 ≤ opcode 0xFFFFFFFF) ∧
    (let s := hostDoes [.send 0x09000000] ready24;
      s.rx = [] ∧ s.err = false ∧ s.host = .send 0x09000000 :: [] ∧ discardsCommand [] = false) := by decide +kernel

/-- The lowest and the highest reserved bits, and a WRITE with its operand words. -/
theorem witness_ReservedFieldFaults :
    (assignedOpcode 0x01000004 ∧ reservedNonzero 0x01000004 ∧ commandLength 0x01000004 = 1) ∧
    (assignedOpcode 0x03000100 ∧ reservedNonzero 0x03000100 ∧ commandLength 0x03000100 = 1) ∧
    (assignedOpcode 0x07800000 ∧ reservedNonzero 0x07800000 ∧ commandLength 0x07800000 = 1) ∧
    (let s := hostDoes [.send 0x02000001, .send 0x1000, .send 4] ready24;
      assignedOpcode 0x02000001 ∧ reservedNonzero 0x02000001 ∧
      [0x1000#32, 4#32].length + 1 = commandLength 0x02000001 ∧ s.rx = [] ∧ s.err = false ∧
      s.host = [0x02000001, 0x1000, 4].map HostAction.send ++ [] ∧ discardsCommand [] = false) := by decide +kernel

/-- A STAT with a reserved bit is refused (V6.18), a well-formed one is not (V7.10). -/
theorem witness_StickyErrorRefuses :
    (let s := hostDoes [.send 0x08000001] (failed .reservedField);
      ([] : List Word).length + 1 = commandLength 0x08000001 ∧ s.rx = [] ∧ s.err = true ∧
      s.host = [0x08000001].map HostAction.send ++ [] ∧ discardsCommand [] = false ∧ ¬ (0x08000001#32 = 0x08000000#32)) ∧
    (let s := hostDoes [.send 0x08000000] (failed .reservedField);
      ([] : List Word).length + 1 = commandLength 0x08000000 ∧ s.rx = [] ∧ s.err = true ∧
      s.host = [0x08000000].map HostAction.send ++ [] ∧ discardsCommand [] = false) := by decide +kernel

/-- No reset is due where one comes only after the next command. -/
theorem reset_not_due : ¬ resetDue (hostDoes [.send 0x01000000, .reset] (failed .badVariant)) := by
  rintro (⟨h, hh | hh⟩ | ⟨ws, h, hne, hh, -, hd⟩)
  · simp [hostDoes] at hh
  · simp [hostDoes] at hh
  · match ws, hne with
    | [_], _ =>
      obtain rfl : h = [.reset] := by simpa [hostDoes] using (congrArg List.tail hh).symm
      simp [discardsCommand] at hd
    | _ :: _ :: _, _ => simp [hostDoes] at hh

/-- A reset that comes later, a command with ERR = 1, a reset next, and one that discards the next command, whose words
are there or come now. -/
theorem witness_OnlyResetClearsError :
    (let s := hostDoes [.send 0x01000000, .reset] (failed .badVariant);
      (after (step s)).isSome = true ∧ s.err = true ∧ ¬ resetDue s) ∧
    ((after (exec .stat (failed .badVariant))).isSome = true ∧ (failed .badVariant).err = true) ∧
    resetDue (hostDoes [.reset] (failed .badVariant)) ∧
    resetDue (hostDoes [.send 0x01000000, .store 0 0, .resetInProgress] (failed .badVariant)) ∧
    resetDue { failed .badVariant with rx := [0x04000000], host := [.send 0, .resetInProgress] } :=
  ⟨⟨by decide +kernel, by decide, reset_not_due⟩, ⟨by decide +kernel, by decide⟩, .inl ⟨[], .inl rfl⟩,
    .inr ⟨[0x01000000], [.store 0 0, .resetInProgress], by simp, rfl, rfl, rfl⟩,
    .inr ⟨[0], [.resetInProgress], by simp, rfl, rfl, rfl⟩⟩

theorem witness_ReservedVariantFaults : State.reset.err = false := by decide

/-- A well-formed command for each kind of cell, with ERR = 0, and the two kinds with ERR = 1. -/
theorem witness_LifecycleTable :
    ((Instr.init 2).wellFormed = true ∧ done32.err = false ∧ lifecycle (.init 2) done32.phase = .goesTo .active ∧
      (after (exec (.init 2) done32)).isSome = true) ∧
    (Instr.final.wellFormed = true ∧ done32.err = false ∧ lifecycle .final done32.phase = .fault .finalTwice) ∧
    ((Instr.tblrd 2 1023).wellFormed = true ∧ State.reset.err = false ∧
      lifecycle (.tblrd 2 1023) State.reset.phase = .unchanged) ∧
    ((failed .badVariant).err = true ∧ Instr.read ≠ .stat ∧ Instr.read.wellFormed = true) := by decide +kernel

theorem witness_AfterResetOnlyThreeSucceed :
    (Instr.init 2).wellFormed = true ∧ (Instr.tblrd 0 0).wellFormed = true ∧ Instr.stat.wellFormed = true ∧
    (Instr.write 0 0).wellFormed = true ∧ (Instr.wrb 0).wellFormed = true ∧ (Instr.wrw 0).wellFormed = true ∧
    Instr.final.wellFormed = true ∧ Instr.read.wellFormed = true := by decide

theorem witness_HostResetLeaves :
    (hostDoes [.reset, .send 0] ready32).host = .reset :: [.send 0] ∧
    (hostDoes [.resetInProgress] ready32).host = .resetInProgress :: [] := by decide

/-- A success with data, a success without, a fault, a refusal. -/
theorem witness_OneResponsePerCommand :
    answerOf (exec .read done32) = some ⟨0, 0xCBF43926⟩ ∧ answerOf (exec (.wrb 0) ready24) = some ⟨0, 0⟩ ∧
    answerOf (exec .read ready24) = some ⟨1, 0⟩ ∧ answerOf (exec .read (failed .badVariant)) = some ⟨1, 0⟩ := by
  decide +kernel

/-- A command of each shape answers a next state: stream, INIT, FINAL, reading only, fault. -/
theorem witness_FrameOfEveryCommand :
    (after (exec (.write 0x1000 9) ready24)).isSome = true ∧ (after (exec (.init 0) done24)).isSome = true ∧
    (after (exec .final ready24)).isSome = true ∧ (isStream .read = false ∧ (after (exec .read done24)).isSome = true) ∧
    answerOf (exec (.wrw 0) done24) = some ⟨1, 0⟩ := by decide +kernel

/-- A WRITE that is stuck, and one whose buffer was stored to. -/
theorem witness_OnlyWriteStops :
    (∀ t, exec (.write 0x1000 10) ready24 ≠ .next t) ∧
    (∀ t, exec (.write 0x1000 9) { ready24 with touched := [0x1008] } ≠ .next t) := by
  have stops {o : StepOutcome} (h : after o = none) (t : State) : o ≠ .next t := by rintro rfl; cases h
  exact ⟨stops rfl, stops rfl⟩

theorem witness_InitStartsContext : ready32.err = false ∧ done24.err = false ∧ State.reset.err = false := by decide

theorem witness_SelectionIsLeastQualifying :
    select 2 ready32.backends .crc32 = .accel 1 ∧ select 2 ready32.backends .crc24Rfc2440 = .none ∧
    (ready32.err = false ∧ variantOf 0 = some .crc32 ∧ ready32.caps = 2 ∧
      (after (exec (.init 0) ready32)).isSome = true) := by decide +kernel

/-- Each variant. -/
theorem witness_FinalFillsOutput :
    (ready32.err = false ∧ ready32.phase = .active ∧ ready32.variant = .crc32) ∧
    (let s := running .crc32Rfc1510 0;
      s.err = false ∧ s.phase = .active ∧ s.variant = .crc32Rfc1510) ∧
    (ready24.err = false ∧ ready24.phase = .active ∧ ready24.variant = .crc24Rfc2440) := by decide

theorem witness_PublishedValueOfOutput :
    (done32.Inv ∧ done32.phase = .finalized ∧ done32.variant ≠ .crc24Rfc2440) ∧
    (done24.Inv ∧ done24.phase = .finalized ∧ done24.variant = .crc24Rfc2440) :=
  ⟨⟨done32_inv, by decide⟩, done24_inv, by decide⟩

theorem witness_ReadAnswersOutput :
    (done32.err = false ∧ done32.phase = .finalized ∧ done32.Inv) ∧
    (done24.err = false ∧ done24.phase = .finalized ∧ done24.Inv) :=
  ⟨⟨by decide, by decide, done32_inv⟩, by decide, by decide, done24_inv⟩

theorem witness_TblrdAnswersEntry : State.reset.err = false ∧ done24.err = false := by decide

/-- The invariant in IDLE is met after the core's reset of a used state. -/
theorem witness_StatAnswersStatus : ready24.Inv ∧ ready24.err = false ∧ (coreReset ready24).phase = .idle ∧
    (coreReset ready24).Inv :=
  ⟨ready24_inv, by decide, by decide,
    ⟨by decide +kernel, by decide, by decide, by decide, by decide, by decide, nothing_partial rfl⟩⟩

theorem witness_SlicesByZeroByteStep :
    (1 ≤ 1 ∧ 1 < 4 ∧ 0 < 256) ∧ (1 ≤ 3 ∧ 3 < 4 ∧ 255 < 256) := by decide

theorem witness_TableProperties : 0 < 4 ∧ 3 < 4 ∧ 1023 ≤ 1023 := by decide

theorem witness_SourceSlicingFormAgrees : (0x00CE04B7#32).extractLsb' 24 8 = 0 := by decide

theorem witness_Crc24ConceptualStep :
    (0x00CE04B7#32).extractLsb' 24 8 = 0 ∧ (0x00FFFFFF#32).extractLsb' 24 8 = 0 := by decide

/-- WRB, WRW and their equivalence ask the same of the state. -/
theorem witness_WrbConsumesByte : ready24.err = false ∧ ready24.phase = .active ∧ ready24.variant = .crc24Rfc2440 := by
  decide
theorem witness_WrwConsumesWord : ready32.err = false ∧ ready32.phase = .active ∧ ready32.variant = .crc32 := by decide
theorem witness_WrwEqualsFourWrb : ready24.err = false ∧ ready24.phase = .active := by decide

/-- A null buffer and an empty one, in each phase. -/
theorem witness_EmptyWriteChangesNothing :
    ((0#32 = 0 ∨ 5#32 = 0) ∧ ready24.err = false ∧ ready24.phase = .active) ∧
    ((0x100#32 = 0 ∨ 0#32 = 0) ∧ State.reset.err = false ∧ State.reset.phase = .idle) ∧
    ((0#32 = 0 ∨ 0#32 = 0) ∧ done24.err = false ∧ done24.phase = .finalized) := by decide

/-- With a backend, without one, and a buffer that ends at 2^32. -/
theorem witness_WriteConsumesBuffer :
    (ready32.err = false ∧ ready32.phase = .active ∧ (0x1000#32 : Address) ≠ 0 ∧ 9#32 ≠ 0 ∧
      untouched ready32 0x1000 9 ∧ holdsBytes ready32.readable ready32.mem 0x1000 9 [0x31, 0x32, 0x33, 0x34, 0x35, 0x36, 0x37, 0x38, 0x39] ∧
      ready32.backend = .accel 1) ∧
    (let s : State := withLastByte ready24;
      s.err = false ∧ s.phase = .active ∧ (0xFFFFFFFF#32 : Address) ≠ 0 ∧ 1#32 ≠ 0 ∧ untouched s 0xFFFFFFFF 1 ∧
      holdsBytes s.readable s.mem 0xFFFFFFFF 1 [0x31] ∧ s.backend = .none) :=
  ⟨⟨by decide, by decide, by decide, by decide, untouched_of_nil rfl, digits_hold, by decide⟩,
    by decide, by decide, by decide, by decide, untouched_of_nil rfl, lastByte_holds, by decide⟩

/-- A backend of each family. -/
theorem witness_BackendFollowsContract :
    (ready32.backends[1]? = some ⟨.f32, 2, true⟩ ∧ (Family.f32 = .f24 → (0xFFFFFFFF#32).extractLsb' 24 8 = 0)) ∧
    ([(⟨.f24, 0, true⟩ : BackendEntry)][0]? = some ⟨.f24, 0, true⟩ ∧
      (Family.f24 = .f24 → (0x00CE04B7#32).extractLsb' 24 8 = 0)) := by decide

theorem witness_StreamFoldsReference :
    (ready32.Inv ∧ ready32.err = false ∧ ready32.phase = .active ∧ (0x1000#32 : Address) ≠ 0 ∧ 9#32 ≠ 0 ∧
      untouched ready32 0x1000 9 ∧ holdsBytes ready32.readable ready32.mem 0x1000 9 [0x31, 0x32, 0x33, 0x34, 0x35, 0x36, 0x37, 0x38, 0x39]) ∧
    (ready24.Inv ∧ ready24.err = false ∧ ready24.phase = .active ∧
      (∀ i ∈ [Instr.write 0x1000 5, .wrb 0x36, .write 0 7, .wrw 0], isStream i = true) ∧
      (after (execAll [.write 0x1000 5, .wrb 0x36, .write 0 7, .wrw 0] ready24)).isSome = true) :=
  ⟨⟨ready32_inv, by decide, by decide, by decide, by decide, untouched_of_nil rfl, digits_hold⟩,
    ready24_inv, by decide, by decide, by decide, by decide +kernel⟩

/-- The two parts may meet at any byte (V5.6) and at either end, with a backend or without. -/
theorem witness_WriteSplitsAnywhere :
    (ready24.Inv ∧ ready24.err = false ∧ ready24.phase = .active ∧ (0x1000#32 : Address) ≠ 0 ∧
      (0x1000#32).toNat + (5#32).toNat + (4#32).toNat ≤ 2 ^ 32 ∧
      (after (exec (.write 0x1000 (5#32 + 4#32)) ready24)).isSome = true) ∧
    (ready32.Inv ∧ ready32.err = false ∧ ready32.phase = .active ∧
      (after (exec (.write 0x1000 (0#32 + 9#32)) ready32)).isSome = true ∧
      (after (exec (.write 0x1000 (9#32 + 0#32)) ready32)).isSome = true) :=
  ⟨⟨ready24_inv, by decide, by decide, by decide, by decide, by decide +kernel⟩,
    ready32_inv, by decide, by decide, by decide +kernel, by decide +kernel⟩

/-- Stuck by an unreadable byte, by a stored one that is not readable, past 2^32 (V5.27), and not stuck at 2^32 (V5.28). -/
theorem witness_StuckExactlyIfNotAdmitted :
    (ready24.err = false ∧ ready24.phase = .active ∧ (0x1000#32 : Address) ≠ 0 ∧ 10#32 ≠ 0 ∧ untouched ready24 0x1000 10 ∧
      exec (.write 0x1000 10) ready24 = .fault .stuckWrite) ∧
    (let s : State := { ready24 with readable := [⟨0x1000, 8⟩] };
      untouched s 0x1000 9 ∧ exec (.write 0x1000 9) s = .fault .stuckWrite ∧ Memory.read s.mem 0x1008 = 0x39) ∧
    (let s : State := withLastByte ready24;
      untouched s 0xFFFFFFFF 2 ∧ exec (.write 0xFFFFFFFF 2) s = .fault .stuckWrite ∧
      (after (exec (.write 0xFFFFFFFF 1) s)).isSome = true) :=
  ⟨⟨by decide, by decide, by decide, by decide, untouched_of_nil rfl, rfl⟩,
    ⟨untouched_of_nil rfl, rfl, by decide +kernel⟩, untouched_of_nil rfl, rfl, by decide +kernel⟩

/-- A stuck WRITE with no reset to come, and one with a word, a store, a change of Readable and a reset behind it. -/
theorem witness_StuckUntilReset :
    (let s := hostDoes [.send 0x02000000, .send 0x1000, .send 10] ready24;
      decode [0x02000000, 0x1000, 10] = .ok (.write 0x1000 10, []) ∧ s.rx = [] ∧
      s.host = [0x02000000, 0x1000, 10].map HostAction.send ++ [] ∧
      exec (.write 0x1000 10) { s with host := [], touched := [] } = .fault .stuckWrite ∧
      HostAction.reset ∉ ([] : List HostAction) ∧ HostAction.resetInProgress ∉ ([] : List HostAction)) ∧
    (let h : List HostAction :=
      [.send 0x08000000, .store 0x1009 0x30, .setReadable [], .resetInProgress, .send 0x08000000];
      let s := hostDoes ([.send 0x02000000, .send 0x1000, .send 10] ++ h) ready24;
      s.host = [0x02000000, 0x1000, 10].map HostAction.send ++ h ∧
      exec (.write 0x1000 10) { s with host := h, touched := [] } = .fault .stuckWrite ∧
      h = [.send 0x08000000, .store 0x1009 0x30, .setReadable []] ++ .resetInProgress :: [.send 0x08000000] ∧
      HostAction.reset ∉ [HostAction.send 0x08000000, .store 0x1009 0x30, .setReadable []] ∧
      HostAction.resetInProgress ∉ [HostAction.send 0x08000000, .store 0x1009 0x30, .setReadable []]) :=
  ⟨⟨rfl, rfl, rfl, rfl, by decide, by decide⟩, rfl, rfl, rfl, by decide, by decide⟩

/-- A store between commands, one inside a command, and the first and the last byte of a touched buffer. -/
theorem witness_TouchedBufferIsRefused :
    (hostDoes [.store 0x1000 0] ready24).host = .store 0x1000 0 :: [] ∧
    ({ ready24 with rx := [0x02000000], host := [.store 0x1000 0] } : State).host = .store 0x1000 0 :: [] ∧
    ready24.err = false ∧ ready24.phase = .active ∧ (0x1000#32 : Address) ≠ 0 ∧ 9#32 ≠ 0 ∧
    ¬ untouched { ready24 with touched := [0x1000] } 0x1000 9 ∧
    ¬ untouched { ready24 with touched := [0x1008] } 0x1000 9 ∧
    untouched { ready24 with touched := [0x1009] } 0x1000 9 := by
  simp [untouched, ready24, running, withDigits, hostDoes, State.reset]

theorem witness_HostStoreChangesOneByte :
    ready24.Inv ∧ (hostDoes [.store 0xFFFFFFFF 1] ready24).host = .store 0xFFFFFFFF 1 :: [] ∧
    (hostDoes [.store 0xFFFFFFFF 1] ready24).Inv :=
  ⟨ready24_inv, by decide,
    ⟨by decide +kernel, by decide, by decide, by decide, by decide, by decide, nothing_partial rfl⟩⟩

theorem witness_WrbytesFoldsBytes : ready32.err = false ∧ ready32.phase = .active := by decide

/-- From reset, from a finalized context, and a null and an empty buffer (W4 to W6). -/
theorem witness_DigestAnswersChecksum :
    (let s : State := withDigits State.reset;
      s.err = false ∧ (0x1000#32 : Address) ≠ 0 ∧ 9#32 ≠ 0 ∧ untouched s 0x1000 9 ∧
      holdsBytes s.readable s.mem 0x1000 9 [0x31, 0x32, 0x33, 0x34, 0x35, 0x36, 0x37, 0x38, 0x39]) ∧
    (let s : State := withLastByte done24;
      s.err = false ∧ (0xFFFFFFFF#32 : Address) ≠ 0 ∧ 1#32 ≠ 0 ∧ untouched s 0xFFFFFFFF 1 ∧
      holdsBytes s.readable s.mem 0xFFFFFFFF 1 [0x31]) ∧
    (State.reset.err = false ∧ (0#32 = 0 ∨ 9#32 = 0) ∧ (0x1000#32 = 0 ∨ 0#32 = 0)) :=
  ⟨⟨by decide, by decide, by decide, untouched_of_nil rfl, digits_hold⟩,
    ⟨by decide, by decide, by decide, untouched_of_nil rfl, lastByte_holds⟩, by decide⟩

/-- A command and a reset. -/
theorem witness_StepKeepsInvariant :
    (hostDoes [.send 0x03000031] ready24).Inv ∧ (after (step (hostDoes [.send 0x03000031] ready24))).isSome = true ∧
    (hostDoes [.reset] ready32).Inv ∧ (after (step (hostDoes [.reset] ready32))).isSome = true :=
  ⟨⟨by decide +kernel, by decide, by decide, by decide, by decide, by decide, nothing_partial rfl⟩,
    by decide +kernel,
    ⟨by decide +kernel, by decide, by decide, by decide, by decide, by decide, nothing_partial rfl⟩,
    by decide +kernel⟩

/-- INIT CRC-24 and a byte, under a backend of family 24. -/
theorem witness_Crc24TopByteZeroOnEveryRun :
    Memory.wf digits = true ∧
    (after (Host.Core.run Sys2Proof.core 2
      { State.reset with
        caps := 1, backends := [⟨.f24, 1, true⟩], mem := digits
        host := [.send 0x01000002, .send 0x03000031] })).map (fun t => (t.variant, t.phase, t.backend)) =
      some (.crc24Rfc2440, .active, .accel 0) := by decide +kernel

theorem witness_ParametersConstant :
    (after (step (hostDoes [.send 0x01000000] ready32))).isSome = true ∧
    (∀ rs, HostAction.setReadable rs ∉ (hostDoes [.send 0x01000000] ready32).host) ∧
    (after (step (hostDoes [.setReadable []] ready32))).isSome = true :=
  ⟨by decide +kernel, by simp [hostDoes], by decide +kernel⟩

/-- With a backend bound, without one, and in IDLE. -/
theorem witness_BackendIsInvisible :
    (ready32.Inv ∧ (after (exec (.write 0x1000 9) ready32)).isSome = true) ∧
    (ready24.Inv ∧ (after (exec (.write 0x1000 9) ready24)).isSome = true) ∧
    ((coreReset ready24).Inv ∧ (after (exec (.init 0) (coreReset ready24))).isSome = true) :=
  ⟨⟨ready32_inv, by decide +kernel⟩, ⟨ready24_inv, by decide +kernel⟩, witness_StatAnswersStatus.2.2.2, by decide +kernel⟩

/-- The platform withdraws a region; an address in a region and one outside it. -/
theorem witness_ReadableIsThePlatforms :
    (hostDoes [.setReadable [⟨0xFFFFFFFF, 1⟩]] ready24).host = .setReadable [⟨0xFFFFFFFF, 1⟩] :: [] ∧
    (∃ r ∈ [(⟨0xFFFFFFFF, 1⟩ : Region)], r.base.toNat ≤ 0xFFFFFFFF ∧ 0xFFFFFFFF < r.base.toNat + r.size) ∧
    (∀ r ∈ [(⟨0xFFFFFFFF, 1⟩ : Region)], ¬ (r.base.toNat ≤ 0x1000 ∧ 0x1000 < r.base.toNat + r.size)) := by
  refine ⟨rfl, by simp, by simp⟩

/-- A WRITE whose last word comes now, a store and a change of Readable before the reset. -/
theorem witness_ResetDiscardsCommand :
    (let s : State :=
        { ready24 with
          rx := [0x02000000, 0x1000]
          host := [.send 9, .store 0x1009 0x30, .setReadable [], .resetInProgress, .send 0x08000000] };
      s.rx ++ [9] = 0x02000000 :: [0x1000, 9] ∧ [0x1000#32, 9#32].length + 1 = commandLength 0x02000000 ∧
      s.host = [9].map HostAction.send ++
        ([.store 0x1009 0x30, .setReadable []] ++ .resetInProgress :: [.send 0x08000000]) ∧
      ∀ a ∈ [HostAction.store 0x1009 0x30, .setReadable []],
        (∃ x b, a = .store x b) ∨ ∃ rs, a = .setReadable rs) :=
  ⟨rfl, rfl, rfl, by simp⟩

end Sys2Proof.Tests
end

section
/-! SUPPORT. The encoding family: words whose OP is reserved (30_encoding.md R70), the variant code that is (R71), and
what a step does with a complete command at the port. -/

namespace Sys2Proof.Machine

/-! ### Words with a reserved OP -/

/-- The reserved opcodes as R70 lists them, and as everything that R78 does not assign. -/
theorem not_assignedOpcode_iff {cw : Word} : ¬ assignedOpcode cw ↔ opcode cw = 0x00#8 ∨ 0x09#8 ≤ opcode cw := by
  simp only [assignedOpcode, ← BitVec.toNat_inj, BitVec.le_def, BitVec.toNat_ofNat, Nat.reducePow, Nat.reduceMod]
  omega

theorem opcode_ne_of_not_assigned {cw : Word} {k : BitVec 8} (h : ¬ assignedOpcode cw)
    (hk : 1 ≤ k.toNat ∧ k.toNat ≤ 8) : opcode cw ≠ k := by
  rintro rfl
  exact h hk

theorem commandLength_of_not_assigned {cw : Word} (h : ¬ assignedOpcode cw) : commandLength cw = 1 := by
  have hne {k : BitVec 8} := opcode_ne_of_not_assigned (k := k) h
  rw [commandLength, if_neg (hne (by decide)), if_neg (hne (by decide))]

theorem decodeFields_of_not_assigned {cw : Word} (a b : Word) (h : ¬ assignedOpcode cw) :
    decodeFields cw a b = .error .illegalOpcode := by
  have hne {k : BitVec 8} := opcode_ne_of_not_assigned (k := k) h
  rw [decodeFields, if_neg (hne (by decide)), if_neg (hne (by decide)), if_neg (hne (by decide)),
    if_neg (hne (by decide)), if_neg (hne (by decide)), if_neg (hne (by decide)), if_neg (hne (by decide)),
    if_neg (hne (by decide))]

/-- A word with a reserved OP is rejected alone, whatever follows. -/
theorem decode_of_not_assigned {cw : Word} (rest : List Word) (h : ¬ assignedOpcode cw) :
    decode (cw :: rest) = .error .illegalOpcode := by
  simp [decode, commandLength_of_not_assigned h, decodeFields_of_not_assigned _ _ h]

/-! ### A complete command at the port -/

/-- A core that waits for a first word acts on a complete command whose words come next. -/
theorem step_complete {s : State} {cw : Word} {ops : List Word} {h : List HostAction} (hrx : s.rx = [])
    (hlen : ops.length + 1 = commandLength cw) (hh : s.host = (cw :: ops).map HostAction.send ++ h) :
    step s = runWords (cw :: ops) { s with host := h, touched := [] } := by
  have hev := nextEvent_complete (List.cons_ne_nil cw ops) (by rw [hrx, List.nil_append]) hlen hh
  rw [step_received hev, if_pos hrx, ← hrx]

theorem runWords_of_misuse {words : List Word} {s : State} {e : DecodeError} {k : Cause}
    (hd : decode words = .error e) (hk : decodeCause e = some k) (hno : discardsCommand s.host = false) :
    runWords words s = .next (misuse k s) := by
  simp only [runWords, hd, hk]
  rw [finishCommand_of_false _ hno]
  rfl

/-- Complete words that are no command are the misuse their decoding names, where no reset discards them. -/
theorem step_of_decodeError {s : State} {cw : Word} {ops : List Word} {h : List HostAction} {e : DecodeError}
    {k : Cause} (hd : decode (cw :: ops) = .error e) (hk : decodeCause e = some k) (hrx : s.rx = [])
    (hlen : ops.length + 1 = commandLength cw) (hh : s.host = (cw :: ops).map HostAction.send ++ h)
    (hno : discardsCommand h = false) : step s = .next (misuse k { s with host := h, touched := [] }) := by
  rw [step_complete hrx hlen hh, runWords_of_misuse hd hk hno]

/-! ### The statements -/

/-- Settles O9: R61 makes the word a complete command, and no line of the decoder has its OP. -/
theorem reservedOpcodeFaults : Obligations.ReservedOpcodeFaults := by
  refine ⟨fun s cw h hop hrx herr hh hno => ?_, by decide⟩
  have hcw : ¬ assignedOpcode cw := not_assignedOpcode_iff.mpr hop
  have hstep : step s = .next (misuse .illegalOpcode { s with host := h, touched := [] }) :=
    step_of_decodeError (decode_of_not_assigned [] hcw) rfl hrx (commandLength_of_not_assigned hcw).symm hh hno
  rw [hstep, misuse_of_ok]
  · rfl
  · exact herr

/-- Settles O13: INIT and TBLRD take their variant through the same code, and 3 names none. -/
theorem reservedVariantFaults : Obligations.ReservedVariantFaults := by
  intro s idx herr
  have hinit : exec (.init 3) s = .next (s.faulted .badVariant) :=
    (execInit_of_reserved s).trans (if_neg (by simp [herr]))
  have htblrd : exec (.tblrd 3 idx) s = .next (s.faulted .badVariant) :=
    (execTblrd_of_reserved idx s).trans (if_neg (by simp [herr]))
  exact ⟨hinit, htblrd⟩

end Sys2Proof.Machine
end

section
/-! SUPPORT. The table generator family: the generator's loops in the words of 41_table_generator.md (R81, R82), the
recurrence of the slices (R83) and the properties of every entry (R86). -/

namespace Sys2Proof.Machine

/-! ### The generator's loops -/

theorem repeatTimes_eq_iterate (f : Word → Word) (n : Nat) : repeatTimes f n = f^[n] := by
  induction n with
  | zero => rfl
  | succ n ih =>
    funext c
    rw [repeatTimes, ih, Function.iterate_succ_apply]

theorem extractLsb'_one_eq_one_iff (c : Word) (i : Nat) : c.extractLsb' i 1 = 1 ↔ c.getLsbD i = true := by
  rw [← BitVec.toNat_inj]
  simp [BitVec.getLsbD, Nat.testBit]

theorem shiftRight32_eq (c : Word) :
    shiftRight32 c = if c.extractLsb' 0 1 = 1 then (c >>> 1) ^^^ 0xEDB88320#32 else c >>> 1 := by
  simp only [shiftRight32, extractLsb'_one_eq_one_iff]

theorem shiftLeft24_eq (c : Word) :
    shiftLeft24 c = if c.extractLsb' 31 1 = 1 then (c <<< 1) ^^^ 0x864CFB00#32 else c <<< 1 := by
  simp only [shiftLeft24, extractLsb'_one_eq_one_iff]

/-- bswap32 as the concatenation of the bytes, the lowest byte on top (00_scope.md R9). -/
theorem bswap32_eq_append (v : Word) :
    bswap32 v = v.extractLsb' 0 8 ++ v.extractLsb' 8 8 ++ v.extractLsb' 16 8 ++ v.extractLsb' 24 8 := by
  apply BitVec.eq_of_getLsbD_eq
  intro i hi
  rw [getLsbD_bswap32 v i hi, BitVec.getLsbD_append, BitVec.getLsbD_append, BitVec.getLsbD_append]
  simp only [BitVec.getLsbD_extractLsb']
  interval_cases i <;> simp

/-! ### Every slice comes from slice 0 by zero-byte steps -/

theorem next_zero_byte (t : Family) (c : Word) : next t c 0 = (c >>> 8) ^^^ slice0 t (byteAt 0 c) := by
  simp [next_eq]

theorem slice_succ (t : Family) (k : Nat) (i : Byte) : slice t (k + 1) i = next t (slice t k i) 0 :=
  (next_zero_byte t _).symm

/-- A zero-byte step of the scalar engine is linear in the register. -/
theorem next_zero_xor (t : Family) (a b : Word) : next t (a ^^^ b) 0 = next t a 0 ^^^ next t b 0 := by
  simp only [next_zero_byte, byteAt_xor, slice0_xor, BitVec.ushiftRight_xor_distrib]
  ac_rfl

/-- Linearity (R86 (b)): slice 0 has it and a zero-byte step keeps it. -/
theorem slice_xor (t : Family) (k : Nat) (a b : Byte) : slice t k (a ^^^ b) = slice t k a ^^^ slice t k b := by
  induction k with
  | zero => exact slice0_xor t a b
  | succ k ih => simp only [slice_succ, ih, next_zero_xor]

/-- R86 (a), from linearity: the entry of `0 ^ 0` is that of 0 folded with itself. -/
theorem slice_zero (t : Family) (k : Nat) : slice t k 0 = 0 := by
  have h := slice_xor t k 0 0
  rwa [BitVec.xor_self, BitVec.xor_self] at h

/-! ### The top byte of every entry of TAB24 (R86 (c)) -/

theorem byteAt_eq_zero_iff (k : Nat) (c : Word) : byteAt k c = 0 ↔ ∀ i < 8, c.getLsbD (8 * k + i) = false := by
  simp [byteAt, BitVec.eq_of_getLsbD_eq_iff]

/-- R82's loop keeps the low byte 0: the shift brings in a 0, and the low byte of the polynomial is 0. -/
theorem shiftLeft24_keeps_lowByte {c : Word} (h : byteAt 0 c = 0) : byteAt 0 (shiftLeft24 c) = 0 := by
  have hshift : byteAt 0 (c <<< 1) = 0 := by
    rw [byteAt_eq_zero_iff] at h ⊢
    intro i hi
    cases i with
    | zero => simp
    | succ i => simpa using fun _ => h i (by omega)
  unfold shiftLeft24
  split
  · rw [byteAt_xor, hshift]
    rfl
  · exact hshift

theorem byteAt_three_bswap32 (v : Word) : byteAt 3 (bswap32 v) = byteAt 0 v := by
  ext i hi
  simp only [byteAt, BitVec.getElem_extractLsb', getLsbD_bswap32 v (8 * 3 + i) (by omega)]
  congr 1
  omega

theorem byteAt_three_slice0_f24 (i : Byte) : byteAt 3 (slice0 .f24 i) = 0 := by
  have hstart : byteAt 0 (i.setWidth 32 <<< 24) = 0 := by
    rw [byteAt_eq_zero_iff]
    intro i hi
    have hlow : 8 * 0 + i < 24 := by omega
    rw [BitVec.getLsbD_shiftLeft, decide_eq_true hlow, Bool.not_true, Bool.and_false, Bool.false_and]
  rw [slice0, byteAt_three_bswap32, repeatTimes_eq_iterate]
  exact Function.Iterate.rec (byteAt 0 · = 0) hstart (fun _ => shiftLeft24_keeps_lowByte) 8

theorem byteAt_three_shiftRight (c : Word) : byteAt 3 (c >>> 8) = 0 := by
  rw [byteAt_eq_zero_iff]
  intro i _
  rw [BitVec.getLsbD_ushiftRight, BitVec.getLsbD_of_ge c _ (by omega)]

theorem byteAt_three_slice_f24 (k : Nat) (i : Byte) : byteAt 3 (slice .f24 k i) = 0 := by
  cases k with
  | zero => exact byteAt_three_slice0_f24 i
  | succ k =>
    rw [slice, byteAt_xor, byteAt_three_shiftRight, byteAt_three_slice0_f24]
    rfl

/-! ### The identifying entries (R86 (d)) -/

theorem identifying_entries :
    entry .f32 1 = 0x77073096#32 ∧ entry .f32 128 = 0xEDB88320#32 ∧ entry .f32 255 = 0x2D02EF8D#32 ∧
    entry .f24 1 = 0x00FB4C86#32 ∧ entry .f24 255 = 0x003885DD#32 := by
  decide

/-! ### The statements -/

/-- Settles O53: the loop is the function's eightfold iterate, with R81's and R82's body. -/
theorem sliceZeroIsGenerated : Obligations.SliceZeroIsGenerated := by
  intro i
  simp only [← shiftRight32_eq, ← shiftLeft24_eq, ← bswap32_eq_append, ← repeatTimes_eq_iterate, entry_byte]
  exact ⟨rfl, rfl⟩

/-- Settles O27: an index is a slice and a byte, and the recurrence is that of `slice`. -/
theorem slicesByZeroByteStep : Obligations.SlicesByZeroByteStep := by
  intro t k i hk _ hi
  obtain ⟨m, rfl⟩ := Nat.exists_eq_add_of_le' hk
  have hbyte : i = (BitVec.ofNat 8 i).toNat := by
    rw [BitVec.toNat_ofNat, Nat.mod_eq_of_lt hi]
  rw [hbyte, Nat.add_sub_cancel, entry_slice, entry_slice, slice_succ]

/-- Settles O28: linearity and the zero entry go from slice to slice, the top byte of TAB24 is the low byte of the
loop's register, and the identifying entries are computed. -/
theorem tableProperties : Obligations.TableProperties := by
  obtain ⟨h32_1, h32_128, h32_255, h24_1, h24_255⟩ := identifying_entries
  refine ⟨fun t k _ => ?_, fun t k a b _ => ?_, fun j _ => ?_, h32_1, h32_128, h32_255, h24_1, h24_255, ?_⟩
  · exact (entry_slice t k 0).trans (slice_zero t k)
  · simp only [entry_slice, slice_xor]
  · exact byteAt_three_slice_f24 _ _
  · rw [h32_1]
    rfl

end Sys2Proof.Machine
end

section
/-! SUPPORT. The slicing engine family: four scalar steps on a word, one byte after the other, are one slicing step
(43_slicing_engine.md R102). The register after `k` of them is `c >>> 8k`, with one slice entry folded in for every byte
consumed; each further step moves every entry folded in so far to the next slice. -/

namespace Sys2Proof.Machine

/-- A value folded into the register passes a scalar step as through a zero-byte step. -/
theorem next_xor (t : Family) (c d : Word) (b : Byte) : next t (c ^^^ d) b = next t c b ^^^ next t d 0 := by
  rw [next_zero_byte]
  simp only [next_eq, byteAt_xor, slice0_xor, BitVec.ushiftRight_xor_distrib]
  ac_rfl

/-- A scalar step moves a slice entry in the register to the next slice (41_table_generator.md R83). -/
theorem next_xor_slice (t : Family) (c : Word) (k : Nat) (i b : Byte) :
    next t (c ^^^ slice t k i) b = next t c b ^^^ slice t (k + 1) i := by
  rw [next_xor, slice_succ]

theorem byteAt_zero_shiftRight (k : Nat) (c : Word) : byteAt 0 (c >>> (8 * k)) = byteAt k c := by
  ext i hi
  simp [byteAt]

/-- The scalar step on byte `k` of the word, seen on the part of `c` still in the register, reads slice 0 at byte `k`
of `c ^ w`. -/
theorem next_shiftRight (t : Family) (c w : Word) (k : Nat) :
    next t (c >>> (8 * k)) (byteAt k w) = (c >>> (8 * (k + 1))) ^^^ slice t 0 (byteAt k (c ^^^ w)) := by
  rw [next_eq, byteAt_zero_shiftRight, ← byteAt_xor, ← BitVec.shiftRight_add]
  rfl

/-- Settles O29: each scalar step folds in slice 0 at its byte of `c ^ w` and moves the entries before it one slice up,
and four steps shift all of `c` out. -/
theorem slicingStepIsFourScalarSteps : Obligations.SlicingStepIsFourScalarSteps := by
  intro t c w
  have h1 : next t c (byteAt 0 w) = (c >>> (8 * 1)) ^^^ slice t 0 (byteAt 0 (c ^^^ w)) := next_shiftRight t c w 0
  have hout : c >>> (8 * 4) = 0#32 := BitVec.ushiftRight_eq_zero le_rfl
  calc next4 t c w
      = c >>> (8 * 4) ^^^ slice t 0 (byteAt 3 (c ^^^ w)) ^^^ slice t 1 (byteAt 2 (c ^^^ w)) ^^^
          slice t 2 (byteAt 1 (c ^^^ w)) ^^^ slice t 3 (byteAt 0 (c ^^^ w)) := by
        rw [next4_eq, hout, BitVec.zero_xor]
        ac_rfl
    _ = next t (next t (next t (next t c (byteAt 0 w)) (byteAt 1 w)) (byteAt 2 w)) (byteAt 3 w) := by
        simp only [h1, next_xor_slice, next_shiftRight]

end Sys2Proof.Machine
end

section
/-! SUPPORT. The dispatch family: selection at INIT as a search for the first qualifying entry (44_dispatch_write.md
R111), and WRITE of a null or empty buffer (R115). -/

namespace Sys2Proof.Machine

/-! ### Selection -/

/-- The mask test of `qualifies`, flag by flag. -/
theorem land_eq_left_iff_testBit (m n : Nat) :
    m &&& n = m ↔ ∀ f, m.testBit f = true → n.testBit f = true := by
  rw [Nat.eq_iff_testBit_eq]
  refine forall_congr' fun f => ?_
  rw [Nat.testBit_and, Bool.and_eq_left_iff_imp]

theorem qualifies_iff (caps : Nat) (t : Family) (b : BackendEntry) :
    qualifies caps t b = true ↔
      b.family = t ∧ b.compiled = true ∧ ∀ f, b.required.testBit f = true → caps.testBit f = true := by
  simp only [qualifies, Bool.and_eq_true, beq_iff_eq, land_eq_left_iff_testBit, and_assoc]

/-- Selection is the library's search for the first element, its index counted from `n`. -/
theorem selectFrom_eq_findIdx? (caps : Nat) (t : Family) (n : Nat) (bs : List BackendEntry) :
    selectFrom caps t n bs = (bs.findIdx? (qualifies caps t)).elim .none fun k => .accel (n + k) := by
  induction bs generalizing n with
  | nil => rfl
  | cons b bs ih =>
    rw [selectFrom, List.findIdx?_cons]
    split
    · rfl
    · rw [ih, Option.elim_map]
      simp only [Function.comp_def, Nat.add_comm, Nat.add_left_comm]

theorem select_eq_accel_iff (caps : Nat) (bs : List BackendEntry) (v : Variant) (k : Nat) :
    select caps bs v = .accel k ↔ bs.findIdx? (qualifies caps (familyOf v)) = some k := by
  rw [select, selectFrom_eq_findIdx?]
  cases bs.findIdx? (qualifies caps (familyOf v)) <;> simp

theorem select_eq_none_iff (caps : Nat) (bs : List BackendEntry) (v : Variant) :
    select caps bs v = .none ↔ bs.findIdx? (qualifies caps (familyOf v)) = none := by
  rw [select, selectFrom_eq_findIdx?]
  cases bs.findIdx? (qualifies caps (familyOf v)) <;> simp

/-- The first index with a property, in the words of R111: the entry there has it and no earlier entry does. -/
theorem findIdx?_eq_some_iff_getElem? {α : Type} (p : α → Bool) (l : List α) (k : Nat) :
    l.findIdx? p = some k ↔
      (∃ a, l[k]? = some a ∧ p a = true) ∧ ∀ j, j < k → ∀ a, l[j]? = some a → ¬ p a = true := by
  rw [List.findIdx?_eq_some_iff_getElem]
  simp only [List.getElem?_eq_some_iff]
  constructor
  · rintro ⟨hk, hp, hbefore⟩
    refine ⟨⟨l[k], ⟨hk, rfl⟩, hp⟩, ?_⟩
    rintro j hj _ ⟨_, rfl⟩
    exact hbefore j hj
  · rintro ⟨⟨_, ⟨hk, rfl⟩, hp⟩, hbefore⟩
    exact ⟨hk, hp, fun j hj => hbefore j hj _ ⟨hj.trans hk, rfl⟩⟩

/-- INIT of a legal code with ERR = 0 puts the selection of its variant into BACKEND. -/
theorem execInit_backend {c : BitVec 2} {v : Variant} {s t : State} (herr : s.err = false)
    (hc : variantOf c = some v) (h : execInit c s = .next t) : t.backend = select s.caps s.backends v := by
  rw [execInit_of_variant s hc, if_neg (by simp [herr])] at h
  cases h
  rfl

/-- Settles O21: selection finds the first qualifying entry, and `qualifies` is R111's three conditions. -/
theorem selectionIsLeastQualifying : Obligations.SelectionIsLeastQualifying := by
  intro caps bs v q
  have hq (b : BackendEntry) : qualifies caps (familyOf v) b = true ↔ q b := by
    cases v <;> exact qualifies_iff caps _ b
  refine ⟨fun k => ?_, ?_, ?_⟩
  · rw [select_eq_accel_iff, findIdx?_eq_some_iff_getElem?]
    simp only [hq]
  · rw [select_eq_none_iff, List.findIdx?_eq_none_iff]
    simp only [← hq, Bool.not_eq_true]
  · rintro s t c herr hc rfl rfl h
    exact execInit_backend herr hc h

/-! ### The empty buffer -/

/-- WRITE outside ACTIVE takes the fault of its phase, whatever its buffer (60_exceptions.md R142). -/
theorem execWrite_of_phaseCause {addr : Address} {len : BitVec 32} {s : State} {k : Cause} (herr : s.err = false)
    (hk : writePhaseCause s.phase = some k) : execWrite addr len s = .next (s.faulted k) := by
  rw [execWrite, hk]
  exact precheck_of_cause herr

/-- Settles O36: in ACTIVE the precheck passes and the buffer is found empty; elsewhere the phase has a cause. -/
theorem emptyWriteChangesNothing : Obligations.EmptyWriteChangesNothing := by
  intro s addr len hempty herr
  refine ⟨fun hphase => ?_, fun hphase => ?_, fun hphase => ?_⟩
  · exact (execWrite_of_active herr hphase).trans (if_pos ((emptyBuffer_eq_true addr len).mpr hempty))
  · exact execWrite_of_phaseCause herr (by rw [hphase, writePhaseCause])
  · exact execWrite_of_phaseCause herr (by rw [hphase, writePhaseCause])

end Sys2Proof.Machine
end

section
/-! SUPPORT. The variant adapters family: the published value (45_variant_adapters.md R124), the CRC-24 register in its
two representations (R121), and the top byte of REG in a CRC-24 context (R128), which WRITE keeps because INIT selects a
backend of the variant's own family. -/

namespace Sys2Proof.Machine

/-! ### Shifts by one byte, and the byte swap -/

theorem shiftRight_shiftLeft_of_lowByte {w : Word} (h : byteAt 0 w = 0) : (w >>> 8) <<< 8 = w := by
  apply BitVec.eq_of_getLsbD_eq
  intro i hi
  by_cases hlow : i < 8
  · have hbit : w.getLsbD i = false := by simpa using (byteAt_eq_zero_iff 0 w).mp h i hlow
    simp [hlow, hbit]
  · simp [hi, hlow, Nat.add_sub_cancel' (Nat.le_of_not_lt hlow)]

theorem shiftLeft_shiftRight_eq_and (w : Word) : (w <<< 8) >>> 8 = w &&& 0x00FFFFFF#32 := by
  apply BitVec.eq_of_getLsbD_eq
  intro i hi
  interval_cases i <;> simp

theorem shiftLeft_shiftRight_of_topByte {w : Word} (h : byteAt 3 w = 0) : (w <<< 8) >>> 8 = w := by
  apply BitVec.eq_of_getLsbD_eq
  intro i hi
  by_cases htop : i < 24
  · have hin : 8 + i < 32 := by omega
    simp [hin, BitVec.getLsbD_eq_getElem hi]
  · have hbit : w.getLsbD i = false := by
      simpa [Nat.add_sub_cancel' (Nat.le_of_not_lt htop)] using (byteAt_eq_zero_iff 3 w).mp h (i - 24) (by omega)
    simp [hbit]

theorem byteAt_bswap32 {k : Nat} (hk : k < 4) (v : Word) : byteAt k (bswap32 v) = byteAt (3 - k) v := by
  ext i hi
  simp only [byteAt, BitVec.getElem_extractLsb', getLsbD_bswap32 v (8 * k + i) (by omega)]
  congr 1
  omega

theorem byteAt_zero_bswap32 (v : Word) : byteAt 0 (bswap32 v) = byteAt 3 v :=
  byteAt_bswap32 (by decide) v

/-- The byte swap turns a shift down by one byte into a shift up. -/
theorem bswap32_shiftRight (c : Word) : bswap32 (c >>> 8) = bswap32 c <<< 8 := by
  apply BitVec.eq_of_getLsbD_eq
  intro i hi
  rw [getLsbD_bswap32 _ i hi, BitVec.getLsbD_ushiftRight, BitVec.getLsbD_shiftLeft]
  by_cases hlow : i < 8
  · rw [BitVec.getLsbD_of_ge c _ (by omega)]
    simp [hlow]
  · rw [getLsbD_bswap32 c (i - 8) (by omega)]
    simp only [hi, hlow, decide_true, decide_false, Bool.not_false, Bool.true_and]
    congr 1
    omega

/-! ### The published value -/

theorem outWord_leBytes (v : Word) : outWord (leBytes v) = bswap32 v := rfl

theorem beBytes_eq_leBytes_bswap32 (v : Word) : beBytes v = leBytes (bswap32 v) := by
  simp [beBytes, leBytes, byteAt_bswap32]

theorem outWord_beBytes (v : Word) : outWord (beBytes v) = v := by
  rw [beBytes_eq_leBytes_bswap32, outWord_leBytes, bswap32_bswap32]

theorem leadingBytes_four (o : OutBuffer) : leadingBytes 4 o = outWord o := by
  simp [leadingBytes, outWord, BitVec.shiftLeft_or_distrib, ← BitVec.shiftLeft_add]

theorem leadingBytes_three (o : OutBuffer) :
    leadingBytes 3 o = o.b0.setWidth 32 <<< 16 ||| o.b1.setWidth 32 <<< 8 ||| o.b2.setWidth 32 := by
  simp [leadingBytes, BitVec.shiftLeft_or_distrib, ← BitVec.shiftLeft_add]

theorem byteAt_three_leadingBytes_three (o : OutBuffer) : byteAt 3 (leadingBytes 3 o) = 0 := by
  rw [leadingBytes_three, byteAt_eq_zero_iff]
  intro i _
  simp (disch := omega) [BitVec.getLsbD_of_ge]

theorem byte_shiftRight (b : Byte) : b.setWidth 32 >>> 8 = 0#32 := by
  ext i hi
  simp

/-- OUT[3] is the byte that leaves the word. -/
theorem leadingBytes_three_eq_shiftRight (o : OutBuffer) : leadingBytes 3 o = outWord o >>> 8 := by
  calc leadingBytes 3 o = (leadingBytes 3 o <<< 8) >>> 8 ||| o.b3.setWidth 32 >>> 8 := by
        rw [shiftLeft_shiftRight_of_topByte (byteAt_three_leadingBytes_three o), byte_shiftRight, BitVec.or_zero]
    _ = leadingBytes 4 o >>> 8 := (BitVec.ushiftRight_or_distrib _ _ 8).symm
    _ = outWord o >>> 8 := by rw [leadingBytes_four]

theorem publishedValue_of_ne_crc24 {v : Variant} (hv : v ≠ .crc24Rfc2440) (o : OutBuffer) :
    publishedValue v o = outWord o := by
  rw [← leadingBytes_four]
  cases v with
  | crc32 => rfl
  | crc32Rfc1510 => rfl
  | crc24Rfc2440 => exact absurd rfl hv

theorem outputBytes_of_ne_crc24 {v : Variant} (hv : v ≠ .crc24Rfc2440) (c : Word) : outputBytes v c = beBytes c := by
  cases v with
  | crc32 => rfl
  | crc32Rfc1510 => rfl
  | crc24Rfc2440 => exact absurd rfl hv

/-- P is the first DLEN bytes of OUT, DLEN as STAT shows it (R126). -/
theorem publishedValue_eq_leadingBytes (v : Variant) (o : OutBuffer) :
    publishedValue v o = leadingBytes (outputSize .finalized v).toNat o := by
  cases v <;> rfl

/-- Settles O23: OUT holds the bytes of REG in the variant's order; read most significant byte first, they are REG in
the one order and the upper three bytes of its byte swap in the other. -/
theorem publishedValueOfOutput : Obligations.PublishedValueOfOutput := by
  intro s hs hphase P
  have hout := hs.out_of_reg hphase
  refine ⟨fun hv => ?_, fun hv => ?_, ?_⟩
  · have hP : P = outWord s.out := publishedValue_of_ne_crc24 hv s.out
    refine ⟨hP, ?_⟩
    rw [hP, hout, outputBytes_of_ne_crc24 hv, outWord_beBytes]
  · have hP : P = leadingBytes 3 s.out := congrArg (publishedValue · s.out) hv
    refine ⟨hP.trans (leadingBytes_three s.out), ?_⟩
    rw [hv] at hout
    rw [hP, leadingBytes_three_eq_shiftRight, hout]
    rfl
  · rw [hphase]
    exact publishedValue_eq_leadingBytes s.variant s.out

/-! ### The conceptual CRC-24 register -/

theorem conceptual_xor (a b : Word) : conceptual (a ^^^ b) = conceptual a ^^^ conceptual b := by
  rw [conceptual, bswap32_xor, BitVec.ushiftRight_xor_distrib]
  rfl

/-- The two shifts that the conceptual register goes through between two table lookups. -/
theorem conceptual_shiftRight {c : Word} (h : byteAt 3 c = 0) :
    conceptual (c >>> 8) = (conceptual c <<< 8) &&& 0x00FFFFFF#32 := by
  have hlow : byteAt 0 (bswap32 c) = 0 := (byteAt_zero_bswap32 c).trans h
  rw [conceptual, conceptual, bswap32_shiftRight, shiftLeft_shiftRight_eq_and, shiftRight_shiftLeft_of_lowByte hlow]

theorem bswap32_conceptual {c : Word} (h : byteAt 3 c = 0) : bswap32 (conceptual c <<< 8) = c := by
  have hlow : byteAt 0 (bswap32 c) = 0 := (byteAt_zero_bswap32 c).trans h
  rw [conceptual, shiftRight_shiftLeft_of_lowByte hlow, bswap32_bswap32]

theorem byteAt_two_conceptual (c : Word) : byteAt 2 (conceptual c) = byteAt 0 c := by
  calc byteAt 2 (conceptual c) = byteAt 3 (bswap32 c) := by
        ext i hi
        simp [byteAt, conceptual, ← Nat.add_assoc]
    _ = byteAt 0 c := byteAt_three_bswap32 c

theorem conceptual_slice0 (i : Byte) : conceptual (slice0 .f24 i) = conceptualEntry i := by
  rw [conceptualEntry, entry_byte, conceptual]

/-- Settles O32: with the top byte 0 the shifts lose nothing, so that the map is one to one; it takes the scalar step
apart term by term, as it is linear. -/
theorem crc24ConceptualStep : Obligations.Crc24ConceptualStep := by
  refine ⟨fun c h => (bswap32_conceptual h).symm, fun C h => ?_, by decide, fun c b h => ?_, fun i => ?_⟩
  · rw [conceptual, bswap32_bswap32, shiftLeft_shiftRight_of_topByte h]
  · rw [next_eq, conceptual_xor, conceptual_shiftRight h, conceptual_slice0, ← byteAt_two_conceptual]
    rfl
  · rw [entry_byte, ← conceptual_slice0, bswap32_conceptual (byteAt_three_slice0_f24 i)]

/-! ### The top byte of REG -/

theorem byteAt_three_next_f24 (c : Word) (b : Byte) : byteAt 3 (next .f24 c b) = 0 := by
  rw [next_eq, byteAt_xor, byteAt_three_shiftRight, byteAt_three_slice0_f24]
  rfl

theorem byteAt_three_next4_f24 (c w : Word) : byteAt 3 (next4 .f24 c w) = 0 := by
  simp only [next4_eq, byteAt_xor, byteAt_three_slice_f24]
  rfl

theorem byteAt_three_updRef_f24 {c : Word} (h : byteAt 3 c = 0) (bytes : List Byte) :
    byteAt 3 (updRef .f24 c bytes) = 0 := by
  induction bytes generalizing c with
  | nil => exact h
  | cons b bytes ih => exact ih (byteAt_three_next_f24 c b)

theorem byteAt_three_next4Times_f24 (n : Nat) {c : Word} (h : byteAt 3 c = 0) (bytes : List Byte) :
    byteAt 3 (next4Times .f24 n c bytes).1 = 0 := by
  fun_induction next4Times .f24 n c bytes with
  | case1 n c b0 b1 b2 b3 bytes ih => exact ih (byteAt_three_next4_f24 c _)
  | case2 => exact h

theorem byteAt_three_updTier_f24 {c : Word} (h : byteAt 3 c = 0) (bytes : List Byte) :
    byteAt 3 (updTier .f24 c bytes) = 0 :=
  byteAt_three_updRef_f24 (byteAt_three_next4Times_f24 _ (byteAt_three_next4Times_f24 _ h _) _) _

/-- INIT selects a backend of the variant's own family (44_dispatch_write.md R111). -/
theorem select_family {caps k : Nat} {bs : List BackendEntry} {v : Variant} (h : select caps bs v = .accel k) :
    ∃ b, bs[k]? = some b ∧ b.family = familyOf v := by
  rw [select_eq_accel_iff, findIdx?_eq_some_iff_getElem?] at h
  obtain ⟨⟨b, hb, hq⟩, -⟩ := h
  exact ⟨b, hb, ((qualifies_iff _ _ _).mp hq).1⟩

/-- A backend of family 24 computes inside its contract here (R113). -/
theorem backendUpdate_f24 {bs : List BackendEntry} {k : Nat} {b : BackendEntry} {c : Word} (hb : bs[k]? = some b)
    (hf : b.family = .f24) (h : byteAt 3 c = 0) (bytes : List Byte) :
    backendUpdate bs k c bytes = updRef .f24 c bytes := by
  simp [backendUpdate, hb, hf, contractCovers, h]

/-! ### The invariant of a bound context -/

/-- What the top byte rests on: while a context is bound, BACKEND is the one INIT selected for its variant
(44_dispatch_write.md R112), and in a CRC-24 context the top byte of REG is 0 (R128). -/
structure State.ContextInv (s : State) : Prop where
  backend_selected : s.phase ≠ .idle → s.backend = select s.caps s.backends s.variant
  top_byte : s.variant = .crc24Rfc2440 → s.phase ≠ .idle → byteAt 3 s.reg = 0

theorem State.ContextInv.of_idle {s : State} (h : s.phase = .idle) : s.ContextInv :=
  ⟨fun hp => absurd h hp, fun _ hp => absurd h hp⟩

theorem State.ContextInv.answered {s : State} (h : s.ContextInv) (r : BitVec 1) (d : Word) :
    (s.answered r d).ContextInv :=
  ⟨h.backend_selected, h.top_byte⟩

theorem State.ContextInv.faulted {s : State} (h : s.ContextInv) (k : Cause) : (s.faulted k).ContextInv :=
  ⟨h.backend_selected, h.top_byte⟩

theorem State.ContextInv.setReg {s : State} (h : s.ContextInv) {c : Word}
    (hc : s.variant = .crc24Rfc2440 → s.phase ≠ .idle → byteAt 3 c = 0) : State.ContextInv { s with reg := c } :=
  ⟨h.backend_selected, hc⟩

theorem misuse_keeps_contextInv {s : State} (hs : s.ContextInv) (k : Cause) : (misuse k s).ContextInv := by
  cases he : s.err with
  | true => exact misuse_of_err he ▸ hs.answered 1 0
  | false => exact misuse_of_ok he ▸ hs.faulted k

theorem byteAt_three_seed_crc24 : byteAt 3 (seed .crc24Rfc2440) = 0 := by
  decide

theorem byteAt_three_finalizeReg_crc24 (c : Word) : byteAt 3 (finalizeReg .crc24Rfc2440 c) = 0 := by
  rw [finalizeReg, ← shiftLeft_shiftRight_eq_and, byteAt_three_shiftRight]

theorem startContext_contextInv (v : Variant) (s : State) : (startContext v s).ContextInv := by
  refine ⟨fun _ => rfl, fun hv _ => ?_⟩
  obtain rfl : v = .crc24Rfc2440 := hv
  exact byteAt_three_seed_crc24

theorem finalizeContext_keeps_contextInv {s : State} (hs : s.ContextInv) (hp : s.phase = .active) :
    (finalizeContext s).ContextInv := by
  refine ⟨fun _ => hs.backend_selected (by simp [hp]), fun hv _ => ?_⟩
  rw [finalizeContext_variant] at hv
  rw [finalizeContext_reg, hv, byteAt_three_finalizeReg_crc24]

theorem State.ContextInv.byteAt_three_consumeBuffer {s : State} (h : s.ContextInv) (hv : s.variant = .crc24Rfc2440)
    (hp : s.phase ≠ .idle) (bytes : List Byte) : byteAt 3 (consumeBuffer s bytes) = 0 := by
  have htop : byteAt 3 s.reg = 0 := h.top_byte hv hp
  cases hb : s.backend with
  | none =>
    simp only [consumeBuffer, hb, hv]
    exact byteAt_three_updTier_f24 htop bytes
  | accel k =>
    obtain ⟨b, hk, hf⟩ := select_family ((h.backend_selected hp).symm.trans hb)
    rw [hv] at hf
    simp only [consumeBuffer, hb, backendUpdate_f24 hk hf htop]
    exact byteAt_three_updRef_f24 htop bytes

/-- The commands that write REG, PHASE or VARIANT are INIT, FINAL and those of the stream; the others only answer. -/
theorem exec_keeps_contextInv {i : Instr} {s t : State} (hs : s.ContextInv) (h : exec i s = .next t) :
    t.ContextInv := by
  obtain ⟨-, rfl⟩ | ⟨k, -, -, rfl⟩ | ⟨_, v, -, -, -, rfl⟩ | ⟨_, _, -, -, -, -, rfl⟩ |
    ⟨_, _, bytes, -, -, -, -, -, -, rfl⟩ | ⟨b, -, -, -, rfl⟩ | ⟨d, -, -, -, rfl⟩ | ⟨-, -, hp, rfl⟩ | ⟨-, -, -, rfl⟩ |
    ⟨_, _, _, -, -, -, rfl⟩ | ⟨-, rfl⟩ := exec_next h
  · exact hs.answered 1 0
  · exact hs.faulted k
  · exact (startContext_contextInv v s).answered 0 0
  · exact hs.answered 0 0
  · exact (hs.setReg fun hv hp => hs.byteAt_three_consumeBuffer hv hp bytes).answered 0 0
  · exact (hs.setReg fun hv _ => hv ▸ byteAt_three_next_f24 s.reg b).answered 0 0
  · exact (hs.setReg fun hv _ => hv ▸ byteAt_three_next4_f24 s.reg d).answered 0 0
  · exact (finalizeContext_keeps_contextInv hs hp).answered 0 0
  · exact hs.answered 0 _
  · exact hs.answered 0 _
  · exact hs.answered 0 _

/-- The host and the port touch no element of the context, and a reset leaves it in IDLE. -/
theorem step_keeps_contextInv {s t : State} (hs : s.ContextInv) (h : step s = .next t) : t.ContextInv := by
  have hport (rx : List Word) (touched : List Address) (host : List HostAction) :
      State.ContextInv { s with rx := rx, touched := touched, host := host } :=
    ⟨hs.backend_selected, hs.top_byte⟩
  obtain ⟨-, rfl⟩ | ⟨_, _, _, -, rfl⟩ | ⟨_, _, -, rfl⟩ | ⟨_, -, rfl⟩ | ⟨_, _, _, _, host, -, -, -, hrecv⟩ :=
    step_next h
  · exact hs
  · exact ⟨hs.backend_selected, hs.top_byte⟩
  · exact ⟨hs.backend_selected, hs.top_byte⟩
  · exact .of_idle rfl
  · obtain ⟨-, rfl⟩ | ⟨k, -, -, rfl⟩ | ⟨i, _, -, -, hexec⟩ | ⟨-, hreset, -⟩ := hrecv
    · exact hport _ _ host
    · exact misuse_keeps_contextInv (hport [] _ host) k
    · exact exec_keeps_contextInv (hport [] _ host) hexec
    · exact .of_idle (untilReset_some hreset).1

/-! ### Every run -/

/-- A run of one step more, taken apart at its first step. -/
theorem run_succ_next {M : Host.Core} {n : Nat} {s t : M.State} (h : M.run (n + 1) s = .next t) :
    ∃ u, M.step s = .next u ∧ M.run n u = .next t := by
  rw [Host.Core.run] at h
  split at h
  · exact ⟨_, ‹_›, h⟩
  · cases h
  · cases h

/-- What every step keeps, a run keeps. -/
theorem run_keeps {M : Host.Core} {P : M.State → Prop} (hstep : ∀ {s t}, P s → M.step s = .next t → P t) {n : Nat}
    {s t : M.State} (hs : P s) (h : M.run n s = .next t) : P t := by
  induction n generalizing s with
  | zero =>
    cases h
    exact hs
  | succ n ih =>
    obtain ⟨u, hu, hrun⟩ := run_succ_next h
    exact ih (hstep hs hu) hrun

/-- Settles O50: a run starts in IDLE and every step keeps the context's invariant. -/
theorem crc24TopByteZeroOnEveryRun : Obligations.Crc24TopByteZeroOnEveryRun := by
  intro caps bs m h n t _ hrun
  exact (run_keeps (M := Sys2Proof.core) step_keeps_contextInv (.of_idle rfl) hrun).top_byte

end Sys2Proof.Machine
end

section
/-! SUPPORT. The exceptions family: which line of the precheck decides a complete command (60_exceptions.md R142), and
that the step does what the line says (R140, R144). -/

namespace Sys2Proof.Machine

/-! ### What a command does, line by line -/

/-- The misuse of a command in a phase (R142): none for the commands that are legal in every phase. -/
def phaseCauseOf : Instr → Phase → Option Cause
  | .write _ _, p | .wrb _, p | .wrw _, p => writePhaseCause p
  | .final, p => finalPhaseCause p
  | .read, p => readPhaseCause p
  | .init _, _ | .tblrd _ _, _ | .stat, _ => none

/-- The lines of R142 that are left once the words decode to a command. -/
def commandVerdict (i : Instr) (p : Phase) (err : Bool) : Verdict :=
  if err = true ∧ i ≠ .stat then .refused
  else if i.wellFormed = false then .fault .badVariant
  else (phaseCauseOf i p).elim .runs .fault

/-- `u` is the success of a command in `s` (30_encoding.md R74): ERR and CAUSE stand, RSTAT is 0. -/
def Succeeds (s u : State) : Prop :=
  u.err = s.err ∧ u.cause = s.cause ∧ ∃ d, u.responses = s.responses ++ [⟨0, d⟩]

/-- The outcome `o` of a command in `s` is what the verdict asks for (R140, R144). -/
def MeetsVerdict (s : State) (o : StepOutcome) : Verdict → Prop
  | .refused => o = .next (s.answered 1 0)
  | .fault k => o = .next (s.faulted k)
  | .runs => ∀ u, o = .next u → Succeeds s u

@[simp] theorem legalVariantCode_eq_false {v : BitVec 2} : legalVariantCode v = false ↔ v = 3 := by
  revert v; decide

theorem exists_variantOf {v : BitVec 2} (h : legalVariantCode v = true) : ∃ w, variantOf v = some w := by
  refine Option.ne_none_iff_exists'.mp fun hnone => ?_
  simp [legalVariantCode, variantOf_eq_none.mp hnone] at h

/-- Only INIT and TBLRD can be ill-formed, with V = 3 (30_encoding.md R71, R72). -/
theorem exec_of_illFormed {i : Instr} (s : State) (h : i.wellFormed = false) :
    exec i s = .next (misuse .badVariant s) := by
  cases i with
  | init v | tblrd v _ =>
    obtain rfl := legalVariantCode_eq_false.mp h
    rfl
  | write _ _ | wrb _ | wrw _ | final | read | stat => cases h

/-- Every well-formed command but STAT is a rule of its own behind the precheck of its phase cause. -/
theorem exec_eq_precheck {i : Instr} (s : State) (hwf : i.wellFormed = true) (hi : i ≠ .stat) :
    ∃ rule, exec i s = precheck (phaseCauseOf i s.phase) s rule ∧ ∀ u, rule s = .next u → Succeeds s u := by
  cases i with
  | init v =>
    obtain ⟨w, hw⟩ := exists_variantOf hwf
    simp only [exec, execInit, hw]
    exact ⟨_, rfl, by rintro u ⟨⟩; exact ⟨rfl, rfl, _, rfl⟩⟩
  | tblrd v idx =>
    obtain ⟨w, hw⟩ := exists_variantOf hwf
    simp only [exec, execTblrd, hw]
    exact ⟨_, rfl, by rintro u ⟨⟩; exact ⟨rfl, rfl, _, rfl⟩⟩
  | write addr len =>
    simp only [exec, execWrite]
    refine ⟨_, rfl, fun u h => ?_⟩
    split at h
    · cases h
      exact ⟨rfl, rfl, _, rfl⟩
    · split at h
      · cases h
      · split at h <;> cases h
        exact ⟨rfl, rfl, _, rfl⟩
  | wrb _ | wrw _ | final | read =>
    simp only [exec, execWrb, execWrw, execFinal, execRead]
    exact ⟨_, rfl, by rintro u ⟨⟩; exact ⟨rfl, rfl, _, rfl⟩⟩
  | stat => exact absurd rfl hi

theorem misuse_meetsVerdict (s : State) (k : Cause) :
    MeetsVerdict s (.next (misuse k s)) (if s.err = true then .refused else .fault k) := by
  cases herr : s.err with
  | true => exact congrArg _ (misuse_of_err herr)
  | false => exact congrArg _ (misuse_of_ok herr)

theorem precheck_meetsVerdict {c : Option Cause} {s : State} {rule : State → StepOutcome}
    (hrule : ∀ u, rule s = .next u → Succeeds s u) :
    MeetsVerdict s (precheck c s rule)
      (if s.err = true then .refused else c.elim .runs .fault) := by
  obtain ⟨herr, h⟩ | ⟨k, herr, rfl, h⟩ | ⟨herr, rfl, h⟩ := precheck_cases c s rule <;> rw [h, herr]
  · rfl
  · rfl
  · exact hrule

/-- A command does what the lines of R142 that concern it decide. -/
theorem exec_meetsVerdict (i : Instr) (s : State) : MeetsVerdict s (exec i s) (commandVerdict i s.phase s.err) := by
  by_cases hstat : i = .stat
  · subst hstat
    have hruns : commandVerdict .stat s.phase s.err = .runs := by simp [commandVerdict, Instr.wellFormed, phaseCauseOf]
    rw [hruns]
    rintro u ⟨⟩
    exact ⟨rfl, rfl, _, rfl⟩
  · cases hwf : i.wellFormed with
    | false => simpa [commandVerdict, hstat, hwf, exec_of_illFormed s hwf] using misuse_meetsVerdict s .badVariant
    | true =>
      obtain ⟨rule, hexec, hrule⟩ := exec_eq_precheck s hwf hstat
      simpa [commandVerdict, hstat, hwf, hexec] using precheck_meetsVerdict hrule

theorem wellFormed_of_runs {i : Instr} {p : Phase} {err : Bool} (h : commandVerdict i p err = .runs) :
    i.wellFormed = true := by
  by_contra hwf
  rw [commandVerdict, if_pos (eq_false_of_ne_true hwf)] at h
  split at h <;> cases h

/-! ### Which line decides on a command word -/

/-- The OP of a command's first word (30_encoding.md R62). -/
def opOf : Instr → BitVec 8
  | .init _ => 0x01#8
  | .write _ _ => 0x02#8
  | .wrb _ => 0x03#8
  | .wrw _ => 0x04#8
  | .final => 0x05#8
  | .read => 0x06#8
  | .tblrd _ _ => 0x07#8
  | .stat => 0x08#8

theorem opcode_of_assigned {cw : Word} (h : assignedOpcode cw) :
    opcode cw = 0x01#8 ∨ opcode cw = 0x02#8 ∨ opcode cw = 0x03#8 ∨ opcode cw = 0x04#8 ∨ opcode cw = 0x05#8 ∨
      opcode cw = 0x06#8 ∨ opcode cw = 0x07#8 ∨ opcode cw = 0x08#8 := by
  simp only [assignedOpcode] at h
  simp only [← BitVec.toNat_inj, BitVec.toNat_ofNat, Nat.reducePow, Nat.reduceMod]
  omega

/-- The fields of `cw` are those of the command `i` (30_encoding.md R62, R69, R71), with operand words `a` and `b`. -/
structure Represents (cw a b : Word) (i : Instr) : Prop where
  opcode_eq : opcode cw = opOf i
  illFormed_iff : i.wellFormed = false ↔ reservedVariantWord cw
  decode_reserved : reservedNonzero cw → decodeFields cw a b = .error .reservedField
  decode_ok : ¬ reservedNonzero cw → decodeFields cw a b = .ok i

/-- A command whose line in the decoder has its reserved bits from `lo` up. -/
theorem Represents.of_format {cw a b : Word} {i : Instr} (lo : Nat) (hop : opcode cw = opOf i)
    (h : (i.wellFormed = false ↔ reservedVariantWord cw) ∧ (reservedNonzero cw ↔ reservedBits lo cw ≠ 0) ∧
      decodeFields cw a b = ifReservedZero lo cw i) : Represents cw a b i := by
  obtain ⟨hwf, hres, hfields⟩ := h
  exact ⟨hop, hwf, fun hr => hfields.trans (if_neg (hres.mp hr)),
    fun hr => hfields.trans (if_pos (not_not.mp (mt hres.mpr hr)))⟩

/-- A word with an assigned OP stands for a command, rejected only for its reserved bits. -/
theorem represents_of_assigned {cw : Word} (a b : Word) (h : assignedOpcode cw) : ∃ i, Represents cw a b i := by
  rcases opcode_of_assigned h with hop | hop | hop | hop | hop | hop | hop | hop <;> [
    refine ⟨.init (cw.extractLsb' 0 2), .of_format 2 hop ?_⟩;
    refine ⟨.write a b, .of_format 0 hop ?_⟩;
    refine ⟨.wrb (cw.extractLsb' 0 8), .of_format 8 hop ?_⟩;
    refine ⟨.wrw a, .of_format 0 hop ?_⟩;
    refine ⟨.final, .of_format 0 hop ?_⟩;
    refine ⟨.read, .of_format 0 hop ?_⟩;
    refine ⟨.tblrd (cw.extractLsb' 10 2) (cw.extractLsb' 0 10), .of_format 12 hop ?_⟩;
    refine ⟨.stat, .of_format 0 hop ?_⟩]
  all_goals simp [Instr.wellFormed, decodeFields, reservedNonzero, reservedVariantWord, reservedBits, hop]

/-- With its operand words there, a command is what its fields say and no word is left over (30_encoding.md R61). -/
theorem decode_of_complete {cw : Word} {ops : List Word} (hlen : ops.length + 1 = commandLength cw) :
    decode (cw :: ops) = (decodeFields cw (ops.getD 0 0) (ops.getD 1 0)).map (·, []) := by
  have hrest : ops.drop (commandLength cw - 1) = [] := List.drop_eq_nil_of_le (by omega)
  simp only [decode, hlen, lt_irrefl, if_false, hrest]
  cases decodeFields cw (ops.getD 0 0) (ops.getD 1 0) <;> rfl

/-- The three kinds of a complete command's words (30_encoding.md R72), with what decoding makes of them. -/
theorem decode_complete_cases {cw : Word} {ops : List Word} (hlen : ops.length + 1 = commandLength cw) :
    (¬ assignedOpcode cw ∧ decode (cw :: ops) = .error .illegalOpcode) ∨
    (assignedOpcode cw ∧ reservedNonzero cw ∧ decode (cw :: ops) = .error .reservedField) ∨
    (∃ i, opcode cw = opOf i ∧ ¬ reservedNonzero cw ∧ (i.wellFormed = false ↔ reservedVariantWord cw) ∧
      decode (cw :: ops) = .ok (i, [])) := by
  by_cases hop : assignedOpcode cw
  · obtain ⟨i, hi⟩ := represents_of_assigned (ops.getD 0 0) (ops.getD 1 0) hop
    have hd := decode_of_complete hlen
    by_cases hres : reservedNonzero cw
    · rw [hi.decode_reserved hres] at hd
      exact .inr (.inl ⟨hop, hres, hd⟩)
    · rw [hi.decode_ok hres] at hd
      exact .inr (.inr ⟨i, hi.opcode_eq, hres, hi.illFormed_iff, hd⟩)
  · exact .inl ⟨hop, decode_of_not_assigned ops hop⟩

/-- The refusal exempts STAT alone, whose OP is assigned. -/
theorem precheckVerdict_of_not_assigned {cw : Word} (p : Phase) (err : Bool) (hop : ¬ assignedOpcode cw) :
    precheckVerdict cw p err = if err = true then .refused else .fault .illegalOpcode := by
  have hstat : opcode cw ≠ 0x08#8 := opcode_ne_of_not_assigned hop (by decide)
  rw [precheckVerdict, if_pos hop]
  simp only [hstat, false_and, not_false_eq_true, and_true]

theorem precheckVerdict_of_reservedNonzero {cw : Word} (p : Phase) (err : Bool) (hop : assignedOpcode cw)
    (hres : reservedNonzero cw) :
    precheckVerdict cw p err = if err = true then .refused else .fault .reservedField := by
  have hstat : ¬ (opcode cw = 0x08#8 ∧ cw.extractLsb' 0 24 = 0) := by
    rintro ⟨hop8, hlow⟩
    simp [reservedNonzero, hop8, hlow] at hres
  rw [precheckVerdict, if_neg (not_not.mpr hop), if_pos hres]
  simp only [hstat, not_false_eq_true, and_true]

theorem assignedOpcode_of_opOf {cw : Word} {i : Instr} (hop : opcode cw = opOf i) : assignedOpcode cw := by
  rw [assignedOpcode, hop]
  cases i <;> simp [opOf]

/-- The one word R144 exempts, by its fields. -/
theorem eq_statWord_of_fields {cw : Word} (h : opcode cw = 0x08#8 ∧ cw.extractLsb' 0 24 = 0) :
    cw = 0x08000000#32 := by
  obtain ⟨hop, hlow⟩ := h
  simp only [opcode, ← BitVec.toNat_inj, BitVec.extractLsb'_toNat, Nat.shiftRight_eq_div_pow] at hop hlow ⊢
  simp only [BitVec.ofNat_eq_ofNat, BitVec.toNat_ofNat, Nat.reducePow, Nat.reduceMod, Nat.div_one] at hop hlow ⊢
  have := cw.isLt
  omega

/-- The refusal exempts exactly STAT with its reserved bits zero (R144). -/
theorem statWord_iff_of_opOf {cw : Word} {i : Instr} (hop : opcode cw = opOf i) (hres : ¬ reservedNonzero cw) :
    (opcode cw = 0x08#8 ∧ cw.extractLsb' 0 24 = 0) ↔ i = .stat := by
  cases i with
  | stat => simpa [reservedNonzero, hop, opOf] using hres
  | init _ | write _ _ | wrb _ | wrw _ | final | read | tblrd _ _ => simp [hop, opOf]

/-- The verdict on words that decode to `i`: the lines on OP and the reserved bits do not apply, and the phase lines,
which R142 writes with ranges of OP, are the phase causes of the commands. -/
theorem precheckVerdict_of_opOf {cw : Word} {i : Instr} (p : Phase) (err : Bool) (hop : opcode cw = opOf i)
    (hres : ¬ reservedNonzero cw) (hwf : i.wellFormed = false ↔ reservedVariantWord cw) :
    precheckVerdict cw p err = commandVerdict i p err := by
  have hstat := statWord_iff_of_opOf hop hres
  rw [precheckVerdict, if_neg (not_not.mpr (assignedOpcode_of_opOf hop)), if_neg hres]
  refine if_congr (and_congr_right fun _ => not_congr hstat) rfl (if_congr hwf.symm rfl ?_)
  rw [hop]
  cases i <;> cases p <;> rfl

/-- The precheck and the decoder agree: words that are no command have the verdict of the misuse they decode to, the
others that of their command. -/
theorem precheckVerdict_complete_cases {cw : Word} {ops : List Word} (p : Phase) (err : Bool)
    (hlen : ops.length + 1 = commandLength cw) :
    (∃ e k, decode (cw :: ops) = .error e ∧ decodeCause e = some k ∧
      precheckVerdict cw p err = if err = true then .refused else .fault k) ∨
    (∃ i, decode (cw :: ops) = .ok (i, []) ∧ precheckVerdict cw p err = commandVerdict i p err) := by
  obtain ⟨hop, hd⟩ | ⟨hop, hres, hd⟩ | ⟨i, hop, hres, hwf, hd⟩ := decode_complete_cases hlen
  · exact .inl ⟨_, _, hd, rfl, precheckVerdict_of_not_assigned p err hop⟩
  · exact .inl ⟨_, _, hd, rfl, precheckVerdict_of_reservedNonzero p err hop hres⟩
  · exact .inr ⟨i, hd, precheckVerdict_of_opOf p err hop hres hwf⟩

/-- A complete command that no reset discards ends with its own outcome, or waits for a reset if it is stuck. -/
theorem step_of_decode {s : State} {cw : Word} {ops : List Word} {h : List HostAction} {i : Instr}
    (hd : decode (cw :: ops) = .ok (i, [])) (hrx : s.rx = []) (hh : s.host = (cw :: ops).map HostAction.send ++ h)
    (hno : discardsCommand h = false) :
    step s = releaseStuck { s with host := h, touched := [] } (exec i { s with host := h, touched := [] }) := by
  rw [step_complete hrx (decode_length hd) hh]
  simp only [runWords, hd]
  exact finishCommand_of_false _ hno

/-! ### The statements -/

/-- Settles O8: words that are no command are a misuse, and a command meets the verdict of its own lines. -/
theorem precheckInOrder : Obligations.PrecheckInOrder := by
  intro s cw ops h hlen hrx hh hno t
  obtain ⟨e, k, hd, hk, hverdict⟩ | ⟨i, hd, hverdict⟩ := precheckVerdict_complete_cases s.phase s.err hlen
  · have hstep : step s = .next (misuse k t) := step_of_decodeError hd hk hrx hlen hh hno
    cases herr : s.err with
    | true =>
      rw [← herr, hverdict, if_pos herr]
      exact hstep.trans (congrArg _ (misuse_of_err herr))
    | false =>
      rw [← herr, hverdict, if_neg (by simp [herr])]
      exact hstep.trans (congrArg _ (misuse_of_ok herr))
  · have hstep : step s = releaseStuck t (exec i t) := step_of_decode hd hrx hh hno
    have hmeets : MeetsVerdict t (exec i t) (commandVerdict i s.phase s.err) := exec_meetsVerdict i t
    rw [hverdict]
    cases hv : commandVerdict i s.phase s.err with
    | refused =>
      rw [hv] at hmeets
      exact hstep.trans (congrArg (releaseStuck t) hmeets)
    | fault k =>
      rw [hv] at hmeets
      exact hstep.trans (congrArg (releaseStuck t) hmeets)
    | runs =>
      rw [hv] at hmeets
      exact ⟨i, hd, wellFormed_of_runs hv, hstep, hmeets⟩

/-- Settles O11: while ERR = 1 the precheck refuses every word but that of STAT, whose own rule has no precheck. -/
theorem stickyErrorRefuses : Obligations.StickyErrorRefuses := by
  intro s cw ops h hlen hrx herr hh hno
  refine ⟨fun hne => ?_, ?_⟩
  · have hverdict : precheckVerdict cw s.phase s.err = .refused := if_pos ⟨herr, mt eq_statWord_of_fields hne⟩
    have hstep := precheckInOrder s cw ops h hlen hrx hh hno
    rw [hverdict] at hstep
    exact hstep
  · rintro rfl
    obtain rfl : ops = [] := List.length_eq_zero_iff.mp (Nat.succ.inj hlen)
    exact step_of_decode rfl hrx hh hno

end Sys2Proof.Machine
end

section
/-! SUPPORT. The reset family: what each command answers in the state reset leaves (70_reset_and_hazards.md R161). -/

namespace Sys2Proof.Machine

/-- With ERR = 0, a well-formed command that is a misuse in its phase takes the fault of its cause (60_exceptions.md
R142). -/
theorem exec_of_phaseCause {i : Instr} {s : State} {k : Cause} (hwf : i.wellFormed = true) (herr : s.err = false)
    (hk : phaseCauseOf i s.phase = some k) : exec i s = .next (s.faulted k) := by
  have hverdict : commandVerdict i s.phase s.err = .fault k := by simp [commandVerdict, hwf, herr, hk]
  have hmeets := exec_meetsVerdict i s
  rw [hverdict] at hmeets
  exact hmeets

/-- Settles O15: INIT, TBLRD and STAT are legal in every phase, and each other command has its phase cause in IDLE. -/
theorem afterResetOnlyThreeSucceed : Obligations.AfterResetOnlyThreeSucceed := by
  intro s i hwf r
  have herr : r.err = false := coreReset_err s
  cases i with
  | init v =>
    obtain ⟨w, hw⟩ := exists_variantOf hwf
    have hexec : exec (.init v) r = .next ((startContext w r).answered 0 0) :=
      (execInit_of_variant r hw).trans (if_neg (by simp [herr]))
    exact ⟨_, hexec, rfl, rfl⟩
  | tblrd v idx =>
    obtain ⟨w, hw⟩ := exists_variantOf hwf
    exact ⟨_, (execTblrd_of_variant idx r hw).trans (if_neg (by simp [herr]))⟩
  | stat => exact ⟨statusWord r, rfl⟩
  | write _ _ | wrb _ | wrw _ | final | read => exact exec_of_phaseCause hwf herr rfl

end Sys2Proof.Machine
end

section
/-! SUPPORT. The round trip between commands and words (30_encoding.md R62, R72): a command word is its OP, zeros and
one low field, and each command's words are such a word with its operand words. -/

namespace Sys2Proof.Machine

/-! ### Command words by their fields -/

/-- The command word with OP `op`, the field `x` in its lowest bits and zeros between (30_encoding.md R62). -/
def commandWord (op : BitVec 8) {lo : Nat} (x : BitVec lo) : Word := op.setWidth 32 <<< 24 ||| x.setWidth 32

theorem opcode_commandWord (op : BitVec 8) {lo : Nat} (x : BitVec lo) (hlo : lo ≤ 24) :
    opcode (commandWord op x) = op := by
  ext i hi
  have hx : x.getLsbD (24 + i) = false := BitVec.getLsbD_of_ge x _ (by omega)
  have hin : 24 + i < 32 := by omega
  simp [opcode, commandWord, hx, hin, BitVec.getLsbD_eq_getElem hi]

theorem reservedBits_commandWord (op : BitVec 8) {lo : Nat} (x : BitVec lo) :
    reservedBits lo (commandWord op x) = 0 := by
  ext i hi
  have hlow : lo + i < 24 := by omega
  simp [reservedBits, commandWord, hlow]

theorem lowField_commandWord (op : BitVec 8) {lo : Nat} (x : BitVec lo) (hlo : lo ≤ 24) :
    (commandWord op x).extractLsb' 0 lo = x := by
  ext i hi
  have hlow : i < 24 := by omega
  have hin : i < 32 := by omega
  simp [commandWord, hlow, hin, BitVec.getLsbD_eq_getElem hi]

/-- A word whose reserved bits are zero is made of its OP and its low field. -/
theorem eq_commandWord {cw : Word} {lo : Nat} (hres : reservedBits lo cw = 0) :
    cw = commandWord (opcode cw) (cw.extractLsb' 0 lo) := by
  apply BitVec.eq_of_getLsbD_eq
  intro i hi
  by_cases htop : 24 ≤ i
  · have hbyte : i - 24 < 8 := by omega
    have hin : 24 + (i - 24) = i := by omega
    simp [commandWord, opcode, hi, Nat.not_lt.mpr htop, hbyte, hin]
  · by_cases hfield : i < lo
    · simp [commandWord, hi, Nat.not_le.mp htop, hfield]
    · have hin : i - lo < 24 - lo := by omega
      have hsum : lo + (i - lo) = i := by omega
      have hbit : (reservedBits lo cw).getLsbD (i - lo) = false := by rw [hres]; exact BitVec.getLsbD_zero
      rw [reservedBits, BitVec.getLsbD_extractLsb', hsum, decide_eq_true hin, Bool.true_and] at hbit
      simp [commandWord, hbit, Nat.not_le.mp htop, hfield]

/-! ### The format of each command -/

/-- How many bits of its word the operand field of a command takes (R62). -/
def lowWidth : Instr → Nat
  | .init _ => 2
  | .wrb _ => 8
  | .tblrd _ _ => 12
  | .write _ _ | .wrw _ | .final | .read | .stat => 0

/-- The operand field of a command's word (R63, R64, R67). -/
def lowField : (i : Instr) → BitVec (lowWidth i)
  | .init v => v
  | .wrb b => b
  | .tblrd v idx => v ++ idx
  | .write _ _ | .wrw _ | .final | .read | .stat => 0#0

/-- The operand words of a command (R65, R66). -/
def operandWords : Instr → List Word
  | .write addr len => [addr, len]
  | .wrw data => [data]
  | .init _ | .wrb _ | .final | .read | .tblrd _ _ | .stat => []

theorem lowWidth_le (i : Instr) : lowWidth i ≤ 24 := by
  cases i <;> simp [lowWidth]

theorem encode_eq (i : Instr) : encode i = commandWord (opOf i) (lowField i) :: operandWords i := by
  cases i with
  | init _ | wrb _ =>
    simp [encode, operandWords, commandWord, opOf, lowField]
    rfl
  | tblrd v idx =>
    have hfield : (v ++ idx).setWidth 32 = v.setWidth 32 <<< 10 ||| idx.setWidth 32 :=
      BitVec.setWidth_append_eq_shiftLeft_setWidth_or
    simp [encode, operandWords, commandWord, opOf, lowField, BitVec.or_assoc, ← hfield]
    rfl
  | write _ _ | wrw _ | final | read | stat => simp [encode, operandWords, commandWord, opOf, lowField]

/-- OP gives the number of a command's words (R61). -/
theorem operandWords_length {cw : Word} {i : Instr} (hop : opcode cw = opOf i) :
    (operandWords i).length + 1 = commandLength cw := by
  rw [commandLength, hop]
  cases i <;> rfl

/-- V and IDX of TBLRD, read apart and read as one field. -/
theorem tblrd_fields_iff {cw : Word} {v : BitVec 2} {idx : BitVec 10} :
    cw.extractLsb' 0 12 = v ++ idx ↔ cw.extractLsb' 10 2 = v ∧ cw.extractLsb' 0 10 = idx := by
  have happ : cw.extractLsb' 0 12 = cw.extractLsb' 10 2 ++ cw.extractLsb' 0 10 :=
    (BitVec.extractLsb'_append_extractLsb'_eq_extractLsb' (len₁ := 10) (len₂ := 2) rfl).symm
  rw [happ]
  refine ⟨fun h => ⟨?_, ?_⟩, by rintro ⟨rfl, rfl⟩; rfl⟩
  · simpa only [BitVec.extractLsb'_append_eq_left] using congrArg (BitVec.extractLsb' 10 2) h
  · simpa only [BitVec.extractLsb'_append_eq_right] using congrArg (BitVec.extractLsb' 0 10) h

/-! ### The decoder's lines -/

theorem ifReservedZero_eq_ok {lo : Nat} {cw : Word} {i j : Instr} :
    ifReservedZero lo cw i = .ok j ↔ reservedBits lo cw = 0 ∧ i = j := by
  unfold ifReservedZero
  split <;> simp_all

/-- The decoder's line for a command asks for its OP, zeros in its reserved bits, its field and its operand words. -/
theorem decodeFields_eq_ok {cw a b : Word} {i : Instr} :
    decodeFields cw a b = .ok i ↔ opcode cw = opOf i ∧ reservedBits (lowWidth i) cw = 0 ∧
      cw.extractLsb' 0 (lowWidth i) = lowField i ∧ operandWords i = [a, b].take (operandWords i).length := by
  constructor
  · intro h
    have hassigned : assignedOpcode cw := by
      by_contra hno
      cases (decodeFields_of_not_assigned a b hno).symm.trans h
    rcases opcode_of_assigned hassigned with hop | hop | hop | hop | hop | hop | hop | hop <;>
      simp only [decodeFields, hop, BitVec.reduceEq, if_true, if_false, ifReservedZero_eq_ok] at h <;>
      obtain ⟨hres, rfl⟩ := h <;>
      refine ⟨hop, hres, ?_, rfl⟩
    case inl | inr.inr.inl => rfl
    case inr.inr.inr.inr.inr.inr.inl => exact tblrd_fields_iff.mpr ⟨rfl, rfl⟩
    all_goals exact BitVec.of_length_zero
  · rintro ⟨hop, hres, hfield, hops⟩
    have hline : decodeFields cw a b = ifReservedZero (lowWidth i) cw i := by
      cases i with
      | init v =>
        have hv : cw.extractLsb' 0 2 = v := hfield
        simp [decodeFields, hop, opOf, lowWidth, hv]
      | wrb b =>
        have hb : cw.extractLsb' 0 8 = b := hfield
        simp [decodeFields, hop, opOf, lowWidth, hb]
      | tblrd v idx =>
        obtain ⟨hv, hidx⟩ := tblrd_fields_iff.mp hfield
        simp [decodeFields, hop, opOf, lowWidth, hv, hidx]
      | write addr len =>
        obtain ⟨rfl, rfl⟩ : addr = a ∧ len = b := by simpa [operandWords] using hops
        simp [decodeFields, hop, opOf, lowWidth]
      | wrw data =>
        obtain rfl : data = a := by simpa [operandWords] using hops
        simp [decodeFields, hop, opOf, lowWidth]
      | final | read | stat => simp [decodeFields, hop, opOf, lowWidth]
    exact hline.trans (ifReservedZero_eq_ok.mpr ⟨hres, rfl⟩)

/-- The fields of a command's words determine them. -/
theorem encode_eq_cons_iff {cw : Word} {ops : List Word} {i : Instr} :
    encode i = cw :: ops ↔ opcode cw = opOf i ∧ reservedBits (lowWidth i) cw = 0 ∧
      cw.extractLsb' 0 (lowWidth i) = lowField i ∧ operandWords i = ops := by
  rw [encode_eq, List.cons.injEq]
  constructor
  · rintro ⟨rfl, hops⟩
    have hlo := lowWidth_le i
    exact ⟨opcode_commandWord _ _ hlo, reservedBits_commandWord _ _, lowField_commandWord _ _ hlo, hops⟩
  · rintro ⟨hop, hres, hfield, hops⟩
    rw [← hop, ← hfield]
    exact ⟨(eq_commandWord hres).symm, hops⟩

theorem operandWords_length_le (i : Instr) : (operandWords i).length ≤ 2 := by
  cases i <;> simp [operandWords]

/-- The decoder looks at two words after the command word, and takes 0 where there are less. -/
theorem take_getD_eq_take {n : Nat} {l : List Word} (hn : n ≤ 2) (hl : n ≤ l.length) :
    [l.getD 0 0, l.getD 1 0].take n = l.take n := by
  match n, l, hn, hl with
  | 0, _, _, _ => rfl
  | 1, _ :: _, _, _ => rfl
  | 2, _ :: _ :: _, _, _ => rfl

theorem decode_cons_eq_ok_iff {cw : Word} {tail rest : List Word} {i : Instr} :
    decode (cw :: tail) = .ok (i, rest) ↔ commandLength cw ≤ tail.length + 1 ∧
      decodeFields cw (tail.getD 0 0) (tail.getD 1 0) = .ok i ∧ tail.drop (commandLength cw - 1) = rest := by
  rw [decode]
  split
  · simp; omega
  · cases decodeFields cw (tail.getD 0 0) (tail.getD 1 0) <;> simp; omega

/-- Decoding gives a command exactly if its words stand in front of the rest. -/
theorem decode_eq_ok_iff {ws rest : List Word} {i : Instr} : decode ws = .ok (i, rest) ↔ ws = encode i ++ rest := by
  cases ws with
  | nil => simp [decode, encode_eq]
  | cons cw tail =>
    have hcons : cw :: tail = encode i ++ rest ↔ encode i = cw :: operandWords i ∧ tail = operandWords i ++ rest := by
      simp [encode_eq, eq_comm]
    have htwo := operandWords_length_le i
    rw [hcons, decode_cons_eq_ok_iff, decodeFields_eq_ok, encode_eq_cons_iff]
    constructor
    · rintro ⟨hlen, ⟨hop, hres, hfield, hops⟩, rfl⟩
      have hcount := operandWords_length hop
      rw [take_getD_eq_take htwo (by omega)] at hops
      refine ⟨⟨hop, hres, hfield, rfl⟩, ?_⟩
      rw [← hcount, Nat.add_sub_cancel, hops, List.length_take_of_le (by omega), List.take_append_drop]
    · rintro ⟨⟨hop, hres, hfield, -⟩, rfl⟩
      have hcount := operandWords_length hop
      refine ⟨by simp; omega, ⟨hop, hres, hfield, ?_⟩, by simp [← hcount]⟩
      rw [take_getD_eq_take htwo (by simp), List.take_left]

/-! ### The statements -/

/-- Settles O1: the words of a command stand in front of what follows. -/
theorem decodeOfEncode : Obligations.DecodeOfEncode :=
  fun _ _ => decode_eq_ok_iff.mpr rfl

/-- Settles O2: the decoder checks every bit of the command word, so that no other words decode to the command. -/
theorem encodeOfDecode : Obligations.EncodeOfDecode :=
  fun _ _ _ => decode_eq_ok_iff.mp

/-- Settles O3: the kinds are disjoint by OP, the reserved bits and V, and decoding follows them. -/
theorem everyWordIsOneKind : Obligations.EveryWordIsOneKind := by
  intro cw ops hlen reserved a b c
  obtain ⟨hop, hd⟩ | ⟨hop, hres, hd⟩ | ⟨i, hop, hres, hwf, hd⟩ := decode_complete_cases hlen
  · exact .inr (.inr ⟨fun ⟨h, _⟩ => hop h, fun ⟨h, _⟩ => hop h, hop, hd⟩)
  · exact .inr (.inl ⟨fun ⟨_, h, _⟩ => h hres, ⟨hop, .inl ⟨hres, hd⟩⟩, fun ⟨h, _⟩ => h hop⟩)
  · have hassigned := assignedOpcode_of_opOf hop
    have hc : ¬ c := fun ⟨h, _⟩ => h hassigned
    by_cases hv : reservedVariantWord cw
    · exact .inr (.inl ⟨fun ⟨_, _, h, _⟩ => h hv, ⟨hassigned, .inr ⟨hres, hv, i, hd, hwf.mpr hv⟩⟩, hc⟩)
    · refine .inl ⟨⟨hassigned, hres, hv, i, hd, by simpa using mt hwf.mp hv⟩, ?_, hc⟩
      rintro ⟨-, ⟨hr, -⟩ | ⟨-, hr, -⟩⟩
      · exact hres hr
      · exact hv hr

/-- Settles O4: each word is a literal. -/
theorem specWordsDecode : Obligations.SpecWordsDecode :=
  ⟨rfl, rfl, rfl, rfl, rfl, rfl, rfl, rfl⟩

end Sys2Proof.Machine
end

section
/-! SUPPORT. The frame of the commands (10_state.md R20) and the invariant of the machine: the commands keep its part
about the context, the port its part about the words kept, and a reset brings all of it about. -/

namespace Sys2Proof.Machine

/-! ### What no command changes -/

/-- The two states agree on what is not the core's own: the parameters, the input memory and the port's side. -/
structure SamePlatform (s t : State) : Prop where
  caps : t.caps = s.caps
  backends : t.backends = s.backends
  mem : t.mem = s.mem
  readable : t.readable = s.readable
  rx : t.rx = s.rx
  touched : t.touched = s.touched
  host : t.host = s.host

/-- The "written by" column of R20: no command writes the parameters, the input memory or the port. -/
theorem exec_samePlatform {i : Instr} {s t : State} (h : exec i s = .next t) : SamePlatform s t := by
  obtain ⟨-, rfl⟩ | ⟨k, -, -, rfl⟩ | ⟨_, v, -, -, -, rfl⟩ | ⟨_, _, -, -, -, -, rfl⟩ |
    ⟨_, _, bytes, -, -, -, -, -, -, rfl⟩ | ⟨b, -, -, -, rfl⟩ | ⟨d, -, -, -, rfl⟩ | ⟨-, -, hp, rfl⟩ | ⟨-, -, -, rfl⟩ |
    ⟨_, _, _, -, -, -, rfl⟩ | ⟨-, rfl⟩ := exec_next h
  all_goals exact ⟨rfl, rfl, rfl, rfl, rfl, rfl, rfl⟩

/-! ### The words kept -/

theorem decodeFields_ne_incomplete (cw a b : Word) : decodeFields cw a b ≠ .error .incomplete := by
  by_cases hop : assignedOpcode cw
  · obtain ⟨i, hi⟩ := represents_of_assigned a b hop
    by_cases hres : reservedNonzero cw
    · simp [hi.decode_reserved hres]
    · simp [hi.decode_ok hres]
  · simp [decodeFields_of_not_assigned a b hop]

/-- The core waits exactly while operand words are missing (30_encoding.md R75). -/
theorem decode_eq_incomplete_iff {cw : Word} {ops : List Word} :
    decode (cw :: ops) = .error .incomplete ↔ ops.length + 1 < commandLength cw := by
  have hfields := decodeFields_ne_incomplete cw (ops.getD 0 0) (ops.getD 1 0)
  rw [decode]
  split
  · simp [*]
  · cases hd : decodeFields cw (ops.getD 0 0) (ops.getD 1 0) <;> simp_all

/-! ### What the commands do to the invariant -/

theorem State.Inv.contextInv {s : State} (h : s.Inv) : s.ContextInv :=
  ⟨h.backend_selected, h.top_byte⟩

theorem State.Inv.answered {s : State} (h : s.Inv) (r : BitVec 1) (d : Word) : (s.answered r d).Inv :=
  ⟨h.mem_wf, h.idle, h.backend_selected, h.top_byte, h.out_of_reg, h.cause_of_err, h.partial_command⟩

theorem State.Inv.faulted {s : State} (h : s.Inv) {k : Cause} (hk : k ≠ .none) : (s.faulted k).Inv :=
  ⟨h.mem_wf, h.idle, h.backend_selected, h.top_byte, h.out_of_reg, by simp [hk], h.partial_command⟩

/-- While the context runs OUT says nothing of REG. -/
theorem State.Inv.setReg {s : State} (h : s.Inv) (hp : s.phase = .active) {c : Word}
    (hc : s.variant = .crc24Rfc2440 → byteAt 3 c = 0) : State.Inv { s with reg := c } :=
  ⟨h.mem_wf, h.idle, h.backend_selected, fun hv _ => hc hv, fun hf => by simp [hp] at hf, h.cause_of_err,
    h.partial_command⟩

theorem startContext_inv {s : State} (h : s.Inv) (v : Variant) : (startContext v s).Inv :=
  have hctx := startContext_contextInv v s
  ⟨h.mem_wf, nofun, hctx.backend_selected, hctx.top_byte, nofun, h.cause_of_err, h.partial_command⟩

theorem finalizeContext_inv {s : State} (h : s.Inv) (hp : s.phase = .active) : (finalizeContext s).Inv :=
  have hctx := finalizeContext_keeps_contextInv h.contextInv hp
  ⟨h.mem_wf, nofun, hctx.backend_selected, hctx.top_byte, fun _ => rfl, h.cause_of_err, h.partial_command⟩

theorem misuse_inv {s : State} (h : s.Inv) {k : Cause} (hk : k ≠ .none) : (misuse k s).Inv := by
  cases he : s.err with
  | true => exact misuse_of_err he ▸ h.answered 1 0
  | false => exact misuse_of_ok he ▸ h.faulted hk

theorem exec_inv {i : Instr} {s t : State} (hs : s.Inv) (h : exec i s = .next t) : t.Inv := by
  obtain ⟨-, rfl⟩ | ⟨k, -, hk, rfl⟩ | ⟨_, v, -, -, -, rfl⟩ | ⟨_, _, -, -, -, -, rfl⟩ |
    ⟨_, _, bytes, -, -, hp, -, -, -, rfl⟩ | ⟨b, -, -, hp, rfl⟩ | ⟨d, -, -, hp, rfl⟩ | ⟨-, -, hp, rfl⟩ |
    ⟨-, -, -, rfl⟩ | ⟨_, _, _, -, -, -, rfl⟩ | ⟨-, rfl⟩ := exec_next h
  · exact hs.answered 1 0
  · exact hs.faulted hk
  · exact (startContext_inv hs v).answered 0 0
  · exact hs.answered 0 0
  · exact (hs.setReg hp fun hv => hs.contextInv.byteAt_three_consumeBuffer hv (by simp [hp]) bytes).answered 0 0
  · exact (hs.setReg hp fun hv => hv ▸ byteAt_three_next_f24 s.reg b).answered 0 0
  · exact (hs.setReg hp fun hv => hv ▸ byteAt_three_next4_f24 s.reg d).answered 0 0
  · exact (finalizeContext_inv hs hp).answered 0 0
  · exact hs.answered 0 _
  · exact hs.answered 0 _
  · exact hs.answered 0 _

/-! ### What the host and the port do to it -/

theorem State.Inv.of_reset {s : State} (hmem : Memory.wf s.mem = true) (hphase : s.phase = .idle)
    (hvariant : s.variant = .crc32) (hbackend : s.backend = .none) (herr : s.err = false) (hcause : s.cause = .none)
    (hrx : s.rx = []) : s.Inv :=
  have hctx := State.ContextInv.of_idle hphase
  ⟨hmem, fun _ => ⟨hvariant, hbackend⟩, hctx.backend_selected, hctx.top_byte, by simp [hphase], by simp [herr, hcause],
    by simp [hrx]⟩

theorem State.Inv.port {s : State} (h : s.Inv) {rx : List Word}
    (hrx : ∀ cw ops, rx = cw :: ops → ops.length + 1 < commandLength cw) (touched : List Address)
    (host : List HostAction) : State.Inv { s with rx := rx, touched := touched, host := host } :=
  ⟨h.mem_wf, h.idle, h.backend_selected, h.top_byte, h.out_of_reg, h.cause_of_err, hrx⟩

theorem hostStore_inv {s : State} (h : s.Inv) (addr : Address) (b : Byte) : (hostStore addr b s).Inv :=
  ⟨Memory.wf_write s.mem addr b h.mem_wf, h.idle, h.backend_selected, h.top_byte, h.out_of_reg, h.cause_of_err,
    h.partial_command⟩

theorem hostSetReadable_inv {s : State} (h : s.Inv) (rs : List Region) : (hostSetReadable rs s).Inv :=
  ⟨h.mem_wf, h.idle, h.backend_selected, h.top_byte, h.out_of_reg, h.cause_of_err, h.partial_command⟩

theorem untilReset_inv {h : List HostAction} {s t : State} (hs : s.Inv) (hu : untilReset h s = some t) : t.Inv := by
  obtain ⟨hphase, hvariant, hbackend, herr, hcause, hrx, -⟩ := untilReset_some hu
  exact .of_reset (untilReset_mem_wf hu hs.mem_wf) hphase hvariant hbackend herr hcause hrx

/-! ### The statements -/

/-- Settles O48: the reset values are those the invariant asks for. -/
theorem invariantAtReset : Obligations.InvariantAtReset :=
  .of_reset Memory.wf_reset rfl rfl rfl rfl rfl rfl

/-- Settles O49: every event at the port keeps the invariant, and so does the command the words complete. -/
theorem stepKeepsInvariant : Obligations.StepKeepsInvariant := by
  intro s t hs h
  obtain ⟨-, rfl⟩ | ⟨addr, b, host, -, rfl⟩ | ⟨rs, host, -, rfl⟩ | ⟨_, -, rfl⟩ |
    ⟨_, _, _, ws, host, -, -, -, hrecv⟩ := step_next h
  · exact hs
  · exact hostStore_inv (hs.port hs.partial_command s.touched host) addr b
  · exact hostSetReadable_inv (hs.port hs.partial_command s.touched host) rs
  · exact .of_reset hs.mem_wf rfl rfl rfl rfl rfl rfl
  · have htaken := hs.port (rx := []) nofun (if s.rx = [] then [] else s.touched) host
    obtain ⟨hd, rfl⟩ | ⟨k, hk, -, rfl⟩ | ⟨i, _, -, -, hexec⟩ | ⟨-, hreset, -⟩ := hrecv
    · refine hs.port (fun cw ops hwords => ?_) _ host
      rw [hwords] at hd
      exact decode_eq_incomplete_iff.mp hd
    · exact misuse_inv htaken hk
    · exact exec_inv htaken hexec
    · exact untilReset_inv htaken hreset

end Sys2Proof.Machine
end

section
/-! SUPPORT. What each command answers and what it leaves (30_encoding.md R74, 10_state.md R20), cell by cell of the
lifecycle table (45_variant_adapters.md R127), and which command can stop the machine (60_exceptions.md R147). -/

namespace Sys2Proof.Machine

/-! ### The lifecycle table -/

/-- The commands that answer and change nothing else. -/
def answersOnly : Instr → Bool
  | .read | .tblrd _ _ | .stat => true
  | .init _ | .write _ _ | .wrb _ | .wrw _ | .final => false

/-- The phase that a command that succeeds in phase `p` leaves (R127). -/
def phaseAfter : Instr → Phase → Phase
  | .init _, _ => .active
  | .final, _ => .finalized
  | .write _ _, p | .wrb _, p | .wrw _, p | .read, p | .tblrd _ _, p | .stat, p => p

/-- The table's cells are the phase causes of R142 and, where there is none, what the command does to the phase. -/
theorem lifecycle_eq (i : Instr) (p : Phase) :
    lifecycle i p =
      (phaseCauseOf i p).elim (if answersOnly i then .unchanged else .goesTo (phaseAfter i p)) .fault := by
  cases i <;> cases p <;> rfl

theorem exec_of_answersOnly {i : Instr} {s : State} (hi : answersOnly i = true) (hwf : i.wellFormed = true)
    (herr : s.err = false) (hk : phaseCauseOf i s.phase = none) : ∃ d, exec i s = .next (s.answered 0 d) := by
  cases i with
  | read =>
    simp only [exec, execRead]
    rw [show readPhaseCause s.phase = none from hk, precheck_of_legal herr]
    exact ⟨_, rfl⟩
  | tblrd v idx =>
    obtain ⟨w, hw⟩ := exists_variantOf hwf
    exact ⟨_, (execTblrd_of_variant idx s hw).trans (if_neg (by simp [herr]))⟩
  | stat => exact ⟨_, rfl⟩
  | init _ | write _ _ | wrb _ | wrw _ | final => cases hi

theorem exec_phase {i : Instr} {s t : State} (h : exec i s = .next t) (hs : s.err = false) (ht : t.err = false) :
    t.phase = phaseAfter i s.phase := by
  obtain ⟨he, -⟩ | ⟨k, -, -, rfl⟩ | ⟨_, v, rfl, -, -, rfl⟩ | ⟨_, _, rfl, -, -, -, rfl⟩ |
    ⟨_, _, bytes, rfl, -, -, -, -, -, rfl⟩ | ⟨b, rfl, -, -, rfl⟩ | ⟨d, rfl, -, -, rfl⟩ | ⟨rfl, -, hp, rfl⟩ |
    ⟨rfl, -, -, rfl⟩ | ⟨_, _, _, rfl, -, -, rfl⟩ | ⟨rfl, rfl⟩ := exec_next h
  · simp [hs] at he
  · cases ht
  all_goals rfl

/-- A well-formed command with ERR = 0 and no phase cause succeeds, if it completes. -/
theorem exec_succeeds {i : Instr} {s t : State} (hwf : i.wellFormed = true) (herr : s.err = false)
    (hk : phaseCauseOf i s.phase = none) (h : exec i s = .next t) : Succeeds s t := by
  have hruns : commandVerdict i s.phase s.err = .runs := by simp [commandVerdict, hwf, herr, hk]
  have hmeets := exec_meetsVerdict i s
  rw [hruns] at hmeets
  exact hmeets t h

/-- While ERR = 1 every command but STAT is refused (R144). -/
theorem exec_of_err {i : Instr} {s : State} (herr : s.err = true) (hi : i ≠ .stat) :
    exec i s = .next (s.answered 1 0) := by
  have hrefused : commandVerdict i s.phase s.err = .refused := by simp [commandVerdict, herr, hi]
  have hmeets := exec_meetsVerdict i s
  rw [hrefused] at hmeets
  exact hmeets

/-- Settles O14: a cell is the phase cause, a bare answer, or the phase the command leaves. -/
theorem lifecycleTable : Obligations.LifecycleTable := by
  intro i s hwf
  refine ⟨fun herr => ?_, fun herr => ⟨exec_of_err herr, ?_⟩⟩
  · rw [lifecycle_eq]
    cases hk : phaseCauseOf i s.phase with
    | some k => exact exec_of_phaseCause hwf herr hk
    | none =>
      cases hi : answersOnly i with
      | true => exact exec_of_answersOnly hi hwf herr hk
      | false =>
        intro t h
        obtain ⟨he, hcause, hresp⟩ := exec_succeeds hwf herr hk h
        exact ⟨exec_phase h herr (he.trans herr), he.trans herr, hcause, hresp⟩
  · rintro rfl
    exact ⟨_, rfl⟩

/-! ### The context commands in their own phase -/

theorem exec_init_of_variant {v : BitVec 2} {w : Variant} {s : State} (hv : variantOf v = some w)
    (herr : s.err = false) : exec (.init v) s = .next ((startContext w s).answered 0 0) :=
  (execInit_of_variant s hv).trans (if_neg (by simp [herr]))

theorem exec_final_of_active {s : State} (herr : s.err = false) (hphase : s.phase = .active) :
    exec .final s = .next ((finalizeContext s).answered 0 0) := by
  rw [exec, execFinal, hphase]
  exact precheck_of_legal herr

theorem exec_read_of_finalized {s : State} (herr : s.err = false) (hphase : s.phase = .finalized) :
    exec .read s = .next (s.answered 0 (outWord s.out)) := by
  rw [exec, execRead, hphase]
  exact precheck_of_legal herr

/-! ### Responses and frame -/

theorem familyOf_eq_ite (v : Variant) : familyOf v = if v = .crc24Rfc2440 then .f24 else .f32 := by
  cases v <;> rfl

theorem familyOf_of_code {v : BitVec 2} {w : Variant} (h : variantOf v = some w) :
    familyOf w = if v = 2 then .f24 else .f32 := by
  obtain ⟨rfl, hv⟩ | ⟨rfl, hv⟩ | ⟨rfl, hv⟩ | ⟨rfl, hv⟩ := variantOf_cases v <;> cases hv.symm.trans h <;> rfl

/-- Settles O17: one response in every case of `exec_next`, with the data of the command. -/
theorem oneResponsePerCommand : Obligations.OneResponsePerCommand := by
  intro i s t h
  obtain ⟨he, rfl⟩ | ⟨k, -, -, rfl⟩ | ⟨_, v, rfl, -, -, rfl⟩ | ⟨_, _, rfl, -, -, -, rfl⟩ |
    ⟨_, _, bytes, rfl, -, -, -, -, -, rfl⟩ | ⟨b, rfl, -, -, rfl⟩ | ⟨d, rfl, -, -, rfl⟩ | ⟨rfl, -, hp, rfl⟩ |
    ⟨rfl, -, -, rfl⟩ | ⟨v, w, _, rfl, -, hv, rfl⟩ | ⟨rfl, rfl⟩ := exec_next h
  · exact .inl ⟨rfl, .inl he⟩
  · exact .inl ⟨rfl, .inr rfl⟩
  any_goals exact .inr ⟨rfl, rfl⟩
  rw [familyOf_of_code hv]
  exact .inr ⟨rfl, rfl⟩

/-- Settles O18: the writers of each element are read off the cases of `exec_next`. -/
theorem frameOfEveryCommand : Obligations.FrameOfEveryCommand := by
  intro i s t h
  obtain ⟨hcaps, hbackends, hmem, hreadable, hrx, htouched, hhost⟩ := exec_samePlatform h
  simp only [hcaps, hbackends, hmem, hreadable, hrx, htouched, hhost, implies_true, and_true]
  obtain ⟨-, rfl⟩ | ⟨k, -, -, rfl⟩ | ⟨_, v, rfl, -, -, rfl⟩ | ⟨_, _, rfl, -, -, -, rfl⟩ |
    ⟨_, _, bytes, rfl, -, -, -, -, -, rfl⟩ | ⟨b, rfl, -, -, rfl⟩ | ⟨d, rfl, -, -, rfl⟩ | ⟨rfl, -, hp, rfl⟩ |
    ⟨rfl, -, -, rfl⟩ | ⟨v, w, _, rfl, -, hv, rfl⟩ | ⟨rfl, rfl⟩ := exec_next h
  all_goals simp [isStream]

/-! ### Which command can stop -/

theorem precheck_completes (c : Option Cause) (s : State) (f : State → State) :
    ∃ t, precheck c s (fun s => .next (f s)) = .next t := by
  obtain ⟨-, h⟩ | ⟨_, -, -, h⟩ | ⟨-, -, h⟩ := precheck_cases c s (fun s => .next (f s))
  all_goals exact ⟨_, h⟩

theorem exec_completes {i : Instr} (s : State) (hi : ∀ addr len, i ≠ .write addr len) : ∃ t, exec i s = .next t := by
  cases i with
  | init v =>
    simp only [exec, execInit]
    cases variantOf v with
    | none => exact ⟨_, rfl⟩
    | some w => exact precheck_completes _ _ _
  | tblrd v idx =>
    simp only [exec, execTblrd]
    cases variantOf v with
    | none => exact ⟨_, rfl⟩
    | some w => exact precheck_completes _ _ _
  | write addr len => exact absurd rfl (hi addr len)
  | wrb _ | wrw _ | final | read =>
    simp only [exec, execWrb, execWrw, execFinal, execRead]
    exact precheck_completes _ _ _
  | stat => exact ⟨_, rfl⟩

theorem writePhaseCause_eq_none {p : Phase} : writePhaseCause p = none ↔ p = .active := by
  cases p <;> simp [writePhaseCause]

/-- The three ends of a WRITE that gets to its own rule and finds the buffer non-empty (20_memory.md R43, R50). -/
theorem execWrite_nonempty {addr : Address} {len : BitVec 32} {s : State} (herr : s.err = false)
    (hphase : s.phase = .active) (haddr : addr ≠ 0) (hlen : len ≠ 0) :
    (¬ untouched s addr len ∧ execWrite addr len s = .refused .bufferChangedDuringWrite) ∨
    (untouched s addr len ∧ admittedBytes s.readable s.mem addr len = none ∧
      execWrite addr len s = .fault .stuckWrite) ∨
    (∃ bytes, untouched s addr len ∧ holdsBytes s.readable s.mem addr len bytes ∧
      execWrite addr len s = .next (State.answered { s with reg := consumeBuffer s bytes } 0 0)) := by
  have hempty : ¬ emptyBuffer addr len = true := mt (emptyBuffer_eq_true addr len).mp (not_or.mpr ⟨haddr, hlen⟩)
  rw [execWrite_of_active herr hphase, if_neg hempty]
  by_cases htouched : untouched s addr len
  · rw [if_neg (by simpa using (bufferTouched_eq_false s addr len).mpr htouched)]
    cases hbytes : admittedBytes s.readable s.mem addr len with
    | none => exact .inr (.inl ⟨htouched, rfl, rfl⟩)
    | some bytes => exact .inr (.inr ⟨bytes, htouched, (admittedBytes_eq_some _ _ _ _ _).mp hbytes, rfl⟩)
  · rw [if_pos (by simpa using mt (bufferTouched_eq_false s addr len).mp htouched)]
    exact .inl ⟨htouched, rfl⟩

/-- Settles O19: every other command completes, and so does a WRITE before its own rule or of an empty buffer. -/
theorem onlyWriteStops : Obligations.OnlyWriteStops := by
  intro i s hstops
  by_cases hi : ∀ addr len, i ≠ .write addr len
  · obtain ⟨t, ht⟩ := exec_completes s hi
    exact absurd ht (hstops t)
  · push Not at hi
    obtain ⟨addr, len, rfl⟩ := hi
    have herr : s.err = false := by
      by_contra he
      exact hstops _ (exec_of_err (by simpa using he) (by simp))
    have hphase : s.phase = .active := by
      cases hk : writePhaseCause s.phase with
      | some k => exact absurd (execWrite_of_phaseCause herr hk) (hstops _)
      | none => exact writePhaseCause_eq_none.mp hk
    have hempty : ¬ (addr = 0 ∨ len = 0) := fun he => hstops _ ((emptyWriteChangesNothing s addr len he herr).1 hphase)
    push Not at hempty
    obtain ⟨haddr, hlen⟩ := hempty
    refine ⟨addr, len, rfl, haddr, hlen, herr, hphase, ?_⟩
    obtain ⟨ht, hexec⟩ | ⟨-, -, hexec⟩ | ⟨bytes, -, -, hexec⟩ := execWrite_nonempty herr hphase haddr hlen
    · exact .inr ⟨hexec, ht⟩
    · exact .inl hexec
    · exact absurd hexec (hstops _)

end Sys2Proof.Machine
end

section
/-! SUPPORT. The stream commands as one update of REG (43_slicing_engine.md R104, 44_dispatch_write.md R118): the tiers
compute the reference update, which over a concatenation is that over the parts in turn. -/

namespace Sys2Proof.Machine

/-! ### The engines -/

/-- LE32 as the concatenation of the bytes, the first one lowest (00_scope.md R10). -/
theorem le32_eq_append (b0 b1 b2 b3 : Byte) : le32 b0 b1 b2 b3 = b3 ++ b2 ++ b1 ++ b0 := by
  apply BitVec.eq_of_getLsbD_eq
  intro i hi
  rw [BitVec.getLsbD_append, BitVec.getLsbD_append, BitVec.getLsbD_append]
  interval_cases i <;> simp [le32]

theorem byteAt_le32 (b0 b1 b2 b3 : Byte) :
    byteAt 0 (le32 b0 b1 b2 b3) = b0 ∧ byteAt 1 (le32 b0 b1 b2 b3) = b1 ∧ byteAt 2 (le32 b0 b1 b2 b3) = b2 ∧
      byteAt 3 (le32 b0 b1 b2 b3) = b3 := by
  refine ⟨?_, ?_, ?_, ?_⟩ <;> ext i hi <;> interval_cases i <;> simp [byteAt, le32]

theorem next4_eq_updRef (t : Family) (c w : Word) :
    next4 t c w = updRef t c [byteAt 0 w, byteAt 1 w, byteAt 2 w, byteAt 3 w] :=
  slicingStepIsFourScalarSteps t c w

theorem next4_le32 (t : Family) (c : Word) (b0 b1 b2 b3 : Byte) :
    next4 t c (le32 b0 b1 b2 b3) = updRef t c [b0, b1, b2, b3] := by
  obtain ⟨h0, h1, h2, h3⟩ := byteAt_le32 b0 b1 b2 b3
  rw [next4_eq_updRef, h0, h1, h2, h3]

theorem updRef_append (t : Family) (c : Word) (s r : List Byte) : updRef t c (s ++ r) = updRef t (updRef t c s) r := by
  induction s generalizing c with
  | nil => rfl
  | cons b s ih => exact ih (next t c b)

/-- Slicing steps leave the reference update over all the bytes as it is. -/
theorem updRef_next4Times (t : Family) (n : Nat) (c : Word) (s : List Byte) :
    updRef t (next4Times t n c s).1 (next4Times t n c s).2 = updRef t c s := by
  fun_induction next4Times t n c s with
  | case1 n c b0 b1 b2 b3 s ih => rw [ih, next4_le32, ← updRef_append]; rfl
  | case2 => rfl

theorem updTier_eq_updRef (t : Family) (c : Word) (s : List Byte) : updTier t c s = updRef t c s := by
  rw [updTier, tier4, updRef_next4Times, tier16, updRef_next4Times]

/-- Settles O31: by induction over the slicing steps of each tier, and over the first part. -/
theorem chunkingInvariance : Obligations.ChunkingInvariance :=
  ⟨updTier_eq_updRef, updRef_append⟩

/-- Settles O30: the two forms differ only in the byte that meets slice 0, by the register's top byte. -/
theorem sourceSlicingFormAgrees : Obligations.SourceSlicingFormAgrees := by
  refine ⟨fun t c w htop => ?_, 0x01000000#32, 0, by decide⟩
  have hbyte : byteAt 3 (c ^^^ w) = byteAt 3 w := by
    rw [byteAt_xor, show byteAt 3 c = 0#8 from htop, BitVec.zero_xor]
  rw [next4Src24, next4, hbyte]

/-! ### What a stream command does to REG -/

/-- From `s` to `t` a running context consumed these bytes (R104). -/
structure Consumes (s t : State) (bytes : List Byte) : Prop where
  reg : t.reg = updRef (familyOf s.variant) s.reg bytes
  variant : t.variant = s.variant
  phase : t.phase = .active
  err : t.err = false

theorem Consumes.nil {s : State} (herr : s.err = false) (hphase : s.phase = .active) : Consumes s s [] :=
  ⟨rfl, rfl, hphase, herr⟩

theorem Consumes.append {s t u : State} {bytes more : List Byte} (hst : Consumes s t bytes) (htu : Consumes t u more) :
    Consumes s u (bytes ++ more) :=
  ⟨by rw [updRef_append, htu.reg, hst.reg, hst.variant], htu.variant.trans hst.variant, htu.phase, htu.err⟩

theorem exec_wrb_of_active {s : State} (b : Byte) (herr : s.err = false) (hphase : s.phase = .active) :
    exec (.wrb b) s = .next (State.answered { s with reg := next (familyOf s.variant) s.reg b } 0 0) := by
  rw [exec, execWrb, writePhaseCause_eq_none.mpr hphase]
  exact precheck_of_legal herr

theorem exec_wrw_of_active {s : State} (d : Word) (herr : s.err = false) (hphase : s.phase = .active) :
    exec (.wrw d) s = .next (State.answered { s with reg := next4 (familyOf s.variant) s.reg d } 0 0) := by
  rw [exec, execWrw, writePhaseCause_eq_none.mpr hphase]
  exact precheck_of_legal herr

/-- Settles O33: the table of VARIANT is that of its family. -/
theorem wrbConsumesByte : Obligations.WrbConsumesByte := by
  intro s b herr hphase
  rw [exec_wrb_of_active b herr hphase, familyOf_eq_ite]
  rfl

/-- Settles O34: the table of VARIANT is that of its family. -/
theorem wrwConsumesWord : Obligations.WrwConsumesWord := by
  intro s d herr hphase t x
  rw [exec_wrw_of_active d herr hphase, familyOf_eq_ite]
  rfl

theorem exec_wrb_consumes {s : State} (b : Byte) (herr : s.err = false) (hphase : s.phase = .active) :
    ∃ t, exec (.wrb b) s = .next t ∧ Consumes s t [b] :=
  ⟨_, exec_wrb_of_active b herr hphase, rfl, rfl, hphase, herr⟩

theorem exec_wrw_consumes {s : State} (d : Word) (herr : s.err = false) (hphase : s.phase = .active) :
    ∃ t, exec (.wrw d) s = .next t ∧ Consumes s t [byteAt 0 d, byteAt 1 d, byteAt 2 d, byteAt 3 d] :=
  ⟨_, exec_wrw_of_active d herr hphase, next4_eq_updRef _ _ _, rfl, hphase, herr⟩

/-! ### Sequences without a WRITE -/

theorem execAll_cons_of_next {i : Instr} {is : List Instr} {s t : State} (h : exec i s = .next t) :
    execAll (i :: is) s = execAll is t := by
  rw [execAll, h]

/-- One WRB for each byte consumes them all. -/
theorem execAll_wrb_consumes (bytes : List Byte) {s : State} (herr : s.err = false) (hphase : s.phase = .active) :
    ∃ t, execAll (bytes.map .wrb) s = .next t ∧ Consumes s t bytes := by
  induction bytes generalizing s with
  | nil => exact ⟨s, rfl, .nil herr hphase⟩
  | cons b bytes ih =>
    obtain ⟨u, hexec, hu⟩ := exec_wrb_consumes b herr hphase
    obtain ⟨t, hall, ht⟩ := ih hu.err hu.phase
    exact ⟨t, (execAll_cons_of_next hexec).trans hall, hu.append ht⟩

theorem execAll_wrbytes_consumes (bytes : List Byte) {s : State} (herr : s.err = false) (hphase : s.phase = .active) :
    ∃ t, execAll (wrbytesCommands bytes) s = .next t ∧ Consumes s t bytes := by
  fun_induction wrbytesCommands bytes generalizing s with
  | case1 b0 b1 b2 b3 bytes ih =>
    obtain ⟨u, hexec, hu⟩ := exec_wrw_consumes (le32 b0 b1 b2 b3) herr hphase
    obtain ⟨t, hall, ht⟩ := ih hu.err hu.phase
    obtain ⟨h0, h1, h2, h3⟩ := byteAt_le32 b0 b1 b2 b3
    rw [h0, h1, h2, h3] at hu
    exact ⟨t, (execAll_cons_of_next hexec).trans hall, hu.append ht⟩
  | case2 bytes => exact execAll_wrb_consumes bytes herr hphase

/-- Settles O35: both consume the same four bytes. -/
theorem wrwEqualsFourWrb : Obligations.WrwEqualsFourWrb := by
  intro s b0 b1 b2 b3 herr hphase
  obtain ⟨t, hwrw, ht⟩ := exec_wrw_consumes (le32 b0 b1 b2 b3) herr hphase
  obtain ⟨u, hwrb, hu⟩ := execAll_wrb_consumes [b0, b1, b2, b3] herr hphase
  obtain ⟨h0, h1, h2, h3⟩ := byteAt_le32 b0 b1 b2 b3
  rw [h0, h1, h2, h3] at ht
  exact ⟨t, u, hwrw, hwrb, ht.reg.trans hu.reg.symm⟩

/-- Settles O45: the commands consume the bytes in order, and the tiers are the reference update. -/
theorem wrbytesFoldsBytes : Obligations.WrbytesFoldsBytes := by
  intro s bytes herr hphase
  obtain ⟨t, hall, ht⟩ := execAll_wrbytes_consumes bytes herr hphase
  exact ⟨t, hall, ht.reg.trans (updTier_eq_updRef _ _ _).symm, ht.phase, ht.err⟩

end Sys2Proof.Machine
end

section
/-! SUPPORT. WRITE (44_dispatch_write.md R114): which buffers are admitted, that its result does not depend on BACKEND
(R118), and the two pseudo-instructions built on it (30_encoding.md R77). -/

namespace Sys2Proof.Machine

/-! ### The buffer -/

theorem readBytes_isSome (rs : List Region) (m : Memory) (a n : Nat) :
    (readBytes rs m a n).isSome = true ↔ ∀ x, a ≤ x → x < a + n → isReadable rs x = true := by
  induction n generalizing a with
  | zero =>
    simp only [readBytes, Option.isSome_some, true_iff]
    omega
  | succ n ih =>
    have hsplit : (∀ x, a ≤ x → x < a + (n + 1) → isReadable rs x = true) ↔
        isReadable rs a = true ∧ ∀ x, a + 1 ≤ x → x < a + 1 + n → isReadable rs x = true := by
      refine ⟨fun h => ⟨h a le_rfl (by omega), fun x hlo hhi => h x (by omega) (by omega)⟩, ?_⟩
      rintro ⟨hfirst, hrest⟩ x hlo hhi
      obtain rfl | hlt := hlo.eq_or_lt
      · exact hfirst
      · exact hrest x hlt (by omega)
    rw [hsplit, ← ih, ← memRead_isSome rs m, readBytes]
    cases memRead rs m a <;> cases readBytes rs m (a + 1) n <;> simp

/-- A buffer is admitted exactly if it does not pass 2^32 and a region holds each of its addresses (R43). -/
theorem admittedBytes_eq_none (rs : List Region) (m : Memory) (addr : Address) (len : BitVec 32) :
    admittedBytes rs m addr len = none ↔ ¬ (addr.toNat + len.toNat ≤ 2 ^ 32 ∧
      ∀ a, addr.toNat ≤ a → a < addr.toNat + len.toNat → ∃ r ∈ rs, r.base.toNat ≤ a ∧ a < r.base.toNat + r.size) := by
  have hsome := readBytes_isSome rs m addr.toNat len.toNat
  simp only [isReadable_iff] at hsome
  rw [← hsome, admittedBytes]
  by_cases hle : addr.toNat + len.toNat ≤ 2 ^ 32
  · rw [if_pos hle, and_iff_right hle, Option.not_isSome_iff_eq_none]
  · exact iff_of_true (if_neg hle) (mt And.left hle)

/-- Settles O41: of the three ends of a WRITE the host's duty leaves two, and admission tells them apart. -/
theorem stuckExactlyIfNotAdmitted : Obligations.StuckExactlyIfNotAdmitted := by
  intro s addr len herr hphase haddr hlen huntouched
  rw [← admittedBytes_eq_none s.readable s.mem]
  obtain ⟨ht, -⟩ | ⟨-, hnone, hexec⟩ | ⟨bytes, -, hbytes, hexec⟩ := execWrite_nonempty herr hphase haddr hlen
  · exact absurd huntouched ht
  · exact iff_of_true hexec hnone
  · rw [(admittedBytes_eq_some _ _ _ _ _).mpr hbytes, exec, hexec]
    simp

/-- A WRITE of an admitted buffer has the bytes it holds consumed. -/
theorem execWrite_of_holdsBytes {addr : Address} {len : BitVec 32} {s : State} {bytes : List Byte}
    (herr : s.err = false) (hphase : s.phase = .active) (haddr : addr ≠ 0) (hlen : len ≠ 0)
    (huntouched : untouched s addr len) (hbytes : holdsBytes s.readable s.mem addr len bytes) :
    execWrite addr len s = .next (State.answered { s with reg := consumeBuffer s bytes } 0 0) := by
  have hadmitted := (admittedBytes_eq_some _ _ _ _ _).mpr hbytes
  obtain ⟨ht, -⟩ | ⟨-, hnone, -⟩ | ⟨read, -, hread, hexec⟩ := execWrite_nonempty herr hphase haddr hlen
  · exact absurd huntouched ht
  · cases hnone.symm.trans hadmitted
  · cases hadmitted.symm.trans ((admittedBytes_eq_some _ _ _ _ _).mpr hread)
    exact hexec

/-- Settles O37: the path is the one BACKEND names. -/
theorem writeConsumesBuffer : Obligations.WriteConsumesBuffer := by
  intro s addr len bytes herr hphase haddr hlen huntouched hbytes
  rw [exec, execWrite_of_holdsBytes herr hphase haddr hlen huntouched hbytes, ← familyOf_eq_ite]
  cases hb : s.backend <;> simp [consumeBuffer, hb] <;> rfl

/-- Settles O43: the record is kept while words are, and WRITE reads it before its buffer. -/
theorem touchedBufferIsRefused : Obligations.TouchedBufferIsRefused := by
  refine ⟨fun s addr b h hh => ⟨_, step_store hh, ?_⟩, fun s addr len herr hphase haddr hlen htouched => ?_⟩
  · simp [List.isEmpty_iff]
  · obtain ⟨-, hexec⟩ | ⟨hu, -⟩ | ⟨_, hu, -⟩ := execWrite_nonempty herr hphase haddr hlen
    · exact hexec
    · exact absurd hu htouched
    · exact absurd hu htouched

/-! ### BACKEND does not show -/

/-- Settles O38: the contract covers every register value of family 32 and those of family 24 with a zero top byte. -/
theorem backendFollowsContract : Obligations.BackendFollowsContract := by
  intro bs k b c bytes hb htop
  have hcovers : contractCovers b.family c = true := by
    cases hf : b.family with
    | f32 => rfl
    | f24 => exact beq_iff_eq.mpr (htop hf)
  simp only [backendUpdate, hb, hcovers, if_true]

theorem variant_of_family {v : Variant} (h : familyOf v = .f24) : v = .crc24Rfc2440 := by
  cases v <;> simp [familyOf] at h ⊢

/-- R118: in a bound context the path that executes makes no difference. -/
theorem State.ContextInv.consumeBuffer_eq_updRef {s : State} (h : s.ContextInv) (hphase : s.phase ≠ .idle)
    (bytes : List Byte) : consumeBuffer s bytes = updRef (familyOf s.variant) s.reg bytes := by
  cases hb : s.backend with
  | none => simp only [consumeBuffer, hb, updTier_eq_updRef]
  | accel k =>
    obtain ⟨b, hk, hf⟩ := select_family ((h.backend_selected hphase).symm.trans hb)
    simp only [consumeBuffer, hb, ← hf]
    exact backendFollowsContract _ _ _ _ _ hk fun h24 => h.top_byte (variant_of_family (hf.symm.trans h24)) hphase

/-- A stream command that completes in a running context consumed its bytes. -/
theorem exec_stream_consumes {i : Instr} {s t : State} (hs : s.ContextInv) (herr : s.err = false)
    (hphase : s.phase = .active) (hi : isStream i = true) (h : exec i s = .next t) :
    Consumes s t (streamBytes s.readable s.mem i) := by
  cases i with
  | wrb b =>
    obtain ⟨u, hu, hc⟩ := exec_wrb_consumes b herr hphase
    cases hu.symm.trans h
    exact hc
  | wrw d =>
    obtain ⟨u, hu, hc⟩ := exec_wrw_consumes d herr hphase
    cases hu.symm.trans h
    exact hc
  | write addr len =>
    obtain ⟨he, -⟩ | ⟨k, -, hk, -⟩ | ⟨-, -, hempty, rfl⟩ | ⟨bytes, -, -, hempty, -, hbytes, rfl⟩ := execWrite_next h
    · simp [herr] at he
    · rw [hphase] at hk
      cases hk
    · simp only [streamBytes, hempty, if_true]
      exact ⟨rfl, rfl, hphase, herr⟩
    · simp only [streamBytes, hempty, hbytes, Option.getD_some, Bool.false_eq_true, if_false]
      exact ⟨hs.consumeBuffer_eq_updRef (by simp [hphase]) bytes, rfl, hphase, herr⟩
  | init _ | final | read | tblrd _ _ | stat => cases hi

/-- Commands that complete one after the other, taken apart at the first. -/
theorem execAll_cons_next {i : Instr} {is : List Instr} {s t : State} (h : execAll (i :: is) s = .next t) :
    ∃ u, exec i s = .next u ∧ execAll is u = .next t := by
  rw [execAll] at h
  split at h
  · exact ⟨_, ‹_›, h⟩
  · cases h
  · cases h

theorem execAll_stream_consumes {is : List Instr} {s t : State} (hs : s.ContextInv) (herr : s.err = false)
    (hphase : s.phase = .active) (hall : ∀ i ∈ is, isStream i = true) (h : execAll is s = .next t) :
    Consumes s t (is.flatMap (streamBytes s.readable s.mem)) := by
  induction is generalizing s with
  | nil =>
    cases h
    exact .nil herr hphase
  | cons i is ih =>
    obtain ⟨u, hexec, hrest⟩ := execAll_cons_next h
    have hu := exec_stream_consumes hs herr hphase (hall i (List.mem_cons_self ..)) hexec
    have hsame := exec_samePlatform hexec
    have hrestall : ∀ j ∈ is, isStream j = true := fun j hj => hall j (List.mem_cons_of_mem _ hj)
    have ht := ih (exec_keeps_contextInv hs hexec) hu.err hu.phase hrestall hrest
    rw [hsame.readable, hsame.mem] at ht
    exact hu.append ht

/-- Settles O39: the contract makes a backend's result the reference update, which splits over the commands. -/
theorem streamFoldsReference : Obligations.StreamFoldsReference := by
  refine ⟨fun s addr len bytes hs herr hphase haddr hlen huntouched hbytes => ?_,
    fun is s t hs herr hphase hall h => (execAll_stream_consumes hs.contextInv herr hphase hall h).reg⟩
  rw [exec, execWrite_of_holdsBytes herr hphase haddr hlen huntouched hbytes,
    hs.contextInv.consumeBuffer_eq_updRef (by simp [hphase])]
  rfl

/-! ### One buffer, whole and cut in two -/

/-- WRITE of this buffer completes in a running context and consumes these bytes: none of a null or empty buffer (R115),
else those the buffer holds, if the host kept its duty (20_memory.md R43, R50). -/
def Delivers (s : State) (addr : Address) (len : BitVec 32) (bytes : List Byte) : Prop :=
  ((addr = 0 ∨ len = 0) ∧ bytes = []) ∨
    (addr ≠ 0 ∧ len ≠ 0 ∧ untouched s addr len ∧ holdsBytes s.readable s.mem addr len bytes)

theorem exec_write_of_delivers {s : State} {addr : Address} {len : BitVec 32} {bytes : List Byte} (hs : s.ContextInv)
    (herr : s.err = false) (hphase : s.phase = .active) (h : Delivers s addr len bytes) :
    exec (.write addr len) s =
      .next (State.answered { s with reg := updRef (familyOf s.variant) s.reg bytes } 0 0) := by
  obtain ⟨hempty, rfl⟩ | ⟨haddr, hlen, huntouched, hbytes⟩ := h
  · exact (emptyWriteChangesNothing s addr len hempty herr).1 hphase
  · rw [exec, execWrite_of_holdsBytes herr hphase haddr hlen huntouched hbytes,
      hs.consumeBuffer_eq_updRef (by simp [hphase])]

theorem exists_delivers {s t : State} {addr : Address} {len : BitVec 32} (herr : s.err = false)
    (hphase : s.phase = .active) (h : exec (.write addr len) s = .next t) : ∃ bytes, Delivers s addr len bytes := by
  by_cases hempty : addr = 0 ∨ len = 0
  · exact ⟨[], .inl ⟨hempty, rfl⟩⟩
  · obtain ⟨haddr, hlen⟩ := not_or.mp hempty
    obtain ⟨-, hexec⟩ | ⟨-, -, hexec⟩ | ⟨bytes, huntouched, hbytes, -⟩ := execWrite_nonempty herr hphase haddr hlen
    · cases hexec.symm.trans h
    · cases hexec.symm.trans h
    · exact ⟨bytes, .inr ⟨haddr, hlen, huntouched, hbytes⟩⟩

theorem toNat_pos_of_ne_zero {a : BitVec 32} (h : a ≠ 0) : 0 < a.toNat :=
  Nat.pos_of_ne_zero fun hzero => h (BitVec.eq_of_toNat_eq hzero)

/-- A part of an admitted buffer delivers its part of the bytes. -/
theorem delivers_part {s : State} {addr base : Address} {len n : BitVec 32} {bytes : List Byte} (k : Nat)
    (huntouched : untouched s addr len) (hbytes : holdsBytes s.readable s.mem addr len bytes)
    (haddr : addr ≠ 0) (hpart : k + n.toNat ≤ len.toNat) (hbase : n ≠ 0 → base.toNat = addr.toNat + k) :
    Delivers s base n ((bytes.drop k).take n.toNat) := by
  obtain ⟨hend, hlength, hread⟩ := hbytes
  by_cases hn : n = 0
  · exact .inl ⟨.inr hn, by simp [hn]⟩
  · have hat := hbase hn
    have hne : base ≠ 0 := by
      rintro rfl
      have hpos := toNat_pos_of_ne_zero haddr
      simp at hat
      omega
    refine .inr ⟨hne, hn, fun a ha hin => huntouched a ha (by omega), by omega, by simp; omega, fun i hi => ?_⟩
    simp only [List.length_take, List.length_drop] at hi
    rw [hat, Nat.add_assoc, hread (k + i) (by omega)]
    simp

/-- A buffer cut in two delivers its bytes in two parts. -/
theorem delivers_split {s : State} {addr : Address} {m n : BitVec 32} {bytes : List Byte} (haddr : addr ≠ 0)
    (hend : addr.toNat + m.toNat + n.toNat ≤ 2 ^ 32) (h : Delivers s addr (m + n) bytes) :
    ∃ first second, bytes = first ++ second ∧ Delivers s addr m first ∧ Delivers s (addr + m) n second := by
  have hpos := toNat_pos_of_ne_zero haddr
  have hsum : (m + n).toNat = m.toNat + n.toNat := by
    rw [BitVec.toNat_add, Nat.mod_eq_of_lt (by omega)]
  obtain ⟨hempty, rfl⟩ | ⟨-, -, huntouched, hbytes⟩ := h
  · have hzero := congrArg BitVec.toNat (hempty.resolve_left haddr)
    rw [hsum, BitVec.ofNat_eq_ofNat, BitVec.toNat_ofNat, Nat.zero_mod, Nat.add_eq_zero_iff] at hzero
    have hm : m = 0 := BitVec.eq_of_toNat_eq hzero.1
    have hn : n = 0 := BitVec.eq_of_toNat_eq hzero.2
    exact ⟨[], [], rfl, .inl ⟨.inr hm, rfl⟩, .inl ⟨.inr hn, rfl⟩⟩
  · have hlength : bytes.length = m.toNat + n.toNat := hbytes.2.1.trans hsum
    refine ⟨(bytes.drop 0).take m.toNat, (bytes.drop m.toNat).take n.toNat, ?_,
      delivers_part 0 huntouched hbytes haddr (by omega) fun _ => rfl,
      delivers_part m.toNat huntouched hbytes haddr (by omega) fun hn => ?_⟩
    · rw [List.take_of_length_le (l := bytes.drop m.toNat) (by simp [hlength]), List.drop_zero, List.take_append_drop]
    · have hnpos := toNat_pos_of_ne_zero hn
      rw [BitVec.toNat_add, Nat.mod_eq_of_lt (by omega)]

/-- Settles O40: both halves deliver their bytes, and the reference update splits over them. -/
theorem writeSplitsAnywhere : Obligations.WriteSplitsAnywhere := by
  intro s t addr m n hs herr hphase haddr hend h
  obtain ⟨bytes, hbytes⟩ := exists_delivers herr hphase h
  obtain ⟨first, second, rfl, hfirst, hsecond⟩ := delivers_split haddr hend hbytes
  have hu := exec_write_of_delivers hs.contextInv herr hphase hfirst
  have huinv := exec_keeps_contextInv hs.contextInv hu
  refine ⟨_, _, hu, exec_write_of_delivers huinv herr hphase hsecond, ?_⟩
  cases (exec_write_of_delivers hs.contextInv herr hphase hbytes).symm.trans h
  exact (updRef_append _ _ _ _).symm

/-! ### digest -/

/-- From any state with ERR = 0 the four commands complete, and READ answers OUT as FINAL filled it. -/
theorem execAll_digest {s : State} {v : BitVec 2} {w : Variant} {addr : Address} {len : BitVec 32} {bytes : List Byte}
    (herr : s.err = false) (hv : variantOf v = some w) (h : Delivers s addr len bytes) :
    ∃ t, execAll (digestCommands v addr len) s = .next t ∧ t.responses = s.responses ++ [⟨0, 0⟩, ⟨0, 0⟩, ⟨0, 0⟩,
      ⟨0, outWord (outputBytes w (finalizeReg w (updRef (familyOf w) (seed w) bytes)))⟩] := by
  let s1 := (startContext w s).answered 0 0
  let s2 := State.answered { s1 with reg := updRef (familyOf w) (seed w) bytes } 0 0
  let s3 := (finalizeContext s2).answered 0 0
  have hinit : exec (.init v) s = .next s1 := exec_init_of_variant hv herr
  have hwrite : exec (.write addr len) s1 = .next s2 :=
    exec_write_of_delivers ((startContext_contextInv w s).answered 0 0) herr rfl h
  have hfinal : exec .final s2 = .next s3 := exec_final_of_active herr rfl
  have hread : exec .read s3 = .next (s3.answered 0 (outWord s3.out)) := exec_read_of_finalized herr rfl
  refine ⟨s3.answered 0 (outWord s3.out), ?_, ?_⟩
  · rw [digestCommands, execAll_cons_of_next hinit, execAll_cons_of_next hwrite, execAll_cons_of_next hfinal,
      execAll_cons_of_next hread, execAll]
  · simp [s3, s2, s1]

theorem outWord_crc24 {c : Word} (h : byteAt 3 c = 0) :
    outWord (outputBytes .crc24Rfc2440 (finalizeReg .crc24Rfc2440 c)) = conceptual c <<< 8 := by
  have hmask : finalizeReg .crc24Rfc2440 c = c := by
    rw [finalizeReg, ← shiftLeft_shiftRight_eq_and, shiftLeft_shiftRight_of_topByte h]
  have hlow : byteAt 0 (bswap32 c) = 0 := (byteAt_zero_bswap32 c).trans h
  rw [hmask, outputBytes, outWord_leBytes, conceptual, shiftRight_shiftLeft_of_lowByte hlow]

/-- Settles O46: the buffer's bytes are consumed from the seed, and OUT shows the finalized register. -/
theorem digestAnswersChecksum : Obligations.DigestAnswersChecksum := by
  intro s addr len bytes herr hbuffer
  refine ⟨?_, ?_, ?_⟩
  · have h := execAll_digest (v := 0) herr rfl hbuffer
    rw [outputBytes, outWord_beBytes] at h
    rw [← BitVec.xor_allOnes]
    exact h
  · have h := execAll_digest (v := 1) herr rfl hbuffer
    rw [outputBytes, outWord_beBytes] at h
    exact h
  · have h := execAll_digest (v := 2) herr rfl hbuffer
    have htop : byteAt 3 (updRef (familyOf .crc24Rfc2440) (seed .crc24Rfc2440) bytes) = 0 :=
      byteAt_three_updRef_f24 byteAt_three_seed_crc24 bytes
    rw [outWord_crc24 htop] at h
    exact h

end Sys2Proof.Machine
end

section
/-! SUPPORT. Two states that a command does not tell apart: where it completes from one, it completes from the other and
does the same. They are told apart by BACKEND and the parameters (10_state.md R24), or by the host behind the port
(70_reset_and_hazards.md R163). -/

namespace Sys2Proof.Machine

/-- What a command reads of `s` it finds in `u` too, and what it can make of the two states `R` relates. -/
structure Alike (R : State → State → Prop) (s u : State) : Prop where
  reg : u.reg = s.reg
  phase : u.phase = s.phase
  variant : u.variant = s.variant
  out : u.out = s.out
  err : u.err = s.err
  cause : u.cause = s.cause
  mem : u.mem = s.mem
  readable : u.readable = s.readable
  touched : u.touched = s.touched
  consumes : s.phase = .active → ∀ bytes, consumeBuffer u bytes = consumeBuffer s bytes
  answered : ∀ r d, R (s.answered r d) (u.answered r d)
  faulted : ∀ k, R (s.faulted k) (u.faulted k)
  started : ∀ v, R ((startContext v s).answered 0 0) ((startContext v u).answered 0 0)
  consumed : ∀ c, R (State.answered { s with reg := c } 0 0) (State.answered { u with reg := c } 0 0)
  finalized : R ((finalizeContext s).answered 0 0) ((finalizeContext u).answered 0 0)

section

variable {R : State → State → Prop} {s t u : State}

theorem Alike.statusWord_eq (h : Alike R s u) : statusWord u = statusWord s := by
  simp only [statusWord, h.phase, h.variant, h.err, h.cause]

theorem Alike.misuse_related (h : Alike R s u) (k : Cause) : R (misuse k s) (misuse k u) := by
  cases he : s.err with
  | true => exact misuse_of_err he ▸ misuse_of_err (h.err.trans he) ▸ h.answered 1 0
  | false => exact misuse_of_ok he ▸ misuse_of_ok (h.err.trans he) ▸ h.faulted k

/-- The precheck passes in both states, refuses in both, or takes the same fault in both. -/
theorem Alike.precheck_next {c : Option Cause} {rule rule' : State → StepOutcome} (h : Alike R s u)
    (hrule : c = none → ∀ t, rule s = .next t → ∃ v, rule' u = .next v ∧ R t v)
    (ht : precheck c s rule = .next t) : ∃ v, precheck c u rule' = .next v ∧ R t v := by
  obtain ⟨he, hs⟩ | ⟨k, he, rfl, hs⟩ | ⟨he, rfl, hs⟩ := precheck_cases c s rule
  · cases hs.symm.trans ht
    exact ⟨_, precheck_of_err (h.err.trans he), h.answered 1 0⟩
  · cases hs.symm.trans ht
    exact ⟨_, precheck_of_cause (h.err.trans he), h.faulted k⟩
  · rw [precheck_of_legal (h.err.trans he)]
    exact hrule rfl t (hs.symm.trans ht)

/-- A command completes from a state alike, and `R` relates the two next states. -/
theorem Alike.exec_next {i : Instr} (h : Alike R s u) (ht : exec i s = .next t) :
    ∃ v, exec i u = .next v ∧ R t v := by
  cases i with
  | init v =>
    simp only [exec, execInit] at ht ⊢
    cases hv : variantOf v with
    | none =>
      rw [hv] at ht
      cases ht
      exact ⟨_, rfl, h.misuse_related _⟩
    | some w =>
      rw [hv] at ht
      exact h.precheck_next (by rintro - t ⟨⟩; exact ⟨_, rfl, h.started w⟩) ht
  | write addr len =>
    rw [exec, execWrite] at ht ⊢
    rw [h.phase]
    refine h.precheck_next (fun hc t ht => ?_) ht
    have hphase := writePhaseCause_eq_none.mp hc
    rw [h.touched, h.readable, h.mem]
    split at ht
    · cases ht
      exact ⟨_, if_pos ‹_›, h.answered 0 0⟩
    · rw [if_neg ‹_›]
      split at ht
      · cases ht
      · rw [if_neg ‹_›]
        split at ht
        · cases ht
        · cases ht
          exact ⟨_, congrArg _ (congrArg (consumeInto · u) (h.consumes hphase _)), h.consumed _⟩
  | wrb b =>
    rw [exec, execWrb] at ht ⊢
    rw [h.phase]
    refine h.precheck_next ?_ ht
    rintro - t ⟨⟩
    simp only [h.variant, h.reg]
    exact ⟨_, rfl, h.consumed _⟩
  | wrw d =>
    rw [exec, execWrw] at ht ⊢
    rw [h.phase]
    refine h.precheck_next ?_ ht
    rintro - t ⟨⟩
    simp only [h.variant, h.reg]
    exact ⟨_, rfl, h.consumed _⟩
  | final =>
    rw [exec, execFinal] at ht ⊢
    rw [h.phase]
    exact h.precheck_next (by rintro - t ⟨⟩; exact ⟨_, rfl, h.finalized⟩) ht
  | read =>
    rw [exec, execRead] at ht ⊢
    rw [h.phase]
    refine h.precheck_next ?_ ht
    rintro - t ⟨⟩
    simp only [h.out]
    exact ⟨_, rfl, h.answered _ _⟩
  | tblrd v idx =>
    simp only [exec, execTblrd] at ht ⊢
    cases hv : variantOf v with
    | none =>
      rw [hv] at ht
      cases ht
      exact ⟨_, rfl, h.misuse_related _⟩
    | some w =>
      rw [hv] at ht
      exact h.precheck_next (by rintro - t ⟨⟩; exact ⟨_, rfl, h.answered _ _⟩) ht
  | stat =>
    cases ht
    exact ⟨_, by rw [exec, execStat, h.statusWord_eq]; rfl, h.answered _ _⟩

end

/-! ### Another BACKEND under other parameters -/

/-- The elements that the commands' answers can show, and the responses themselves (10_state.md R24). -/
structure SameVisible (s u : State) : Prop where
  responses : u.responses = s.responses
  reg : u.reg = s.reg
  phase : u.phase = s.phase
  variant : u.variant = s.variant
  out : u.out = s.out
  err : u.err = s.err
  cause : u.cause = s.cause

theorem alike_of_contextInv {s : State} {caps : Nat} {bs : List BackendEntry} {b : Backend} (hs : s.ContextInv)
    (hu : State.ContextInv { s with caps := caps, backends := bs, backend := b }) :
    Alike SameVisible s { s with caps := caps, backends := bs, backend := b } where
  reg := rfl
  phase := rfl
  variant := rfl
  out := rfl
  err := rfl
  cause := rfl
  mem := rfl
  readable := rfl
  touched := rfl
  consumes hphase bytes := by
    have hbound : s.phase ≠ .idle := by simp [hphase]
    rw [hs.consumeBuffer_eq_updRef hbound]
    exact hu.consumeBuffer_eq_updRef hbound bytes
  answered _ _ := ⟨rfl, rfl, rfl, rfl, rfl, rfl, rfl⟩
  faulted _ := ⟨rfl, rfl, rfl, rfl, rfl, rfl, rfl⟩
  started _ := ⟨rfl, rfl, rfl, rfl, rfl, rfl, rfl⟩
  consumed _ := ⟨rfl, rfl, rfl, rfl, rfl, rfl, rfl⟩
  finalized := ⟨rfl, rfl, rfl, rfl, rfl, rfl, rfl⟩

/-- Settles O52: only WRITE reads BACKEND, and in a bound context its result does not depend on it. -/
theorem backendIsInvisible : Obligations.BackendIsInvisible := by
  intro i s t caps bs hs h
  have hu : State.ContextInv { s with
      caps := caps, backends := bs, backend := if s.phase = .idle then .none else select caps bs s.variant } :=
    ⟨fun hphase => if_neg hphase, hs.contextInv.top_byte⟩
  obtain ⟨u, hexec, hsame⟩ := (alike_of_contextInv hs.contextInv hu).exec_next h
  exact ⟨u, hexec, hsame.responses, hsame.reg, hsame.phase, hsame.variant, hsame.out, hsame.err, hsame.cause⟩

/-! ### Another host behind the port -/

/-- No command reads or writes what the host does next. -/
theorem exec_setHost {i : Instr} {s t : State} (host : List HostAction) (h : exec i s = .next t) :
    exec i { s with host := host } = .next { t with host := host } := by
  have halike : Alike (fun t v => v = { t with host := host }) s { s with host := host } := by
    constructor <;> intros <;> rfl
  obtain ⟨_, hexec, rfl⟩ := halike.exec_next h
  exact hexec

end Sys2Proof.Machine
end

section
/-! SUPPORT. The port and the host (30_encoding.md R61, R75; 70_reset_and_hazards.md R163, R170): a step takes the words
there are, waits or ends their command, and a reset pulled meanwhile discards it. -/

namespace Sys2Proof.Machine

/-! ### The words a step takes -/

/-- The state in which a command whose last words the port delivers is run: no word kept, `host` left to do. -/
def State.taking (s : State) (host : List HostAction) : State :=
  { s with rx := [], host := host, touched := if s.rx = [] then [] else s.touched }

theorem step_of_words {s : State} {cw : Word} {ops ws : List Word} {h : List HostAction} (hne : ws ≠ [])
    (hs : s.rx ++ ws = cw :: ops) (hlen : ops.length + 1 = commandLength cw)
    (hh : s.host = ws.map HostAction.send ++ h) : step s = runWords (cw :: ops) (s.taking h) :=
  step_received (nextEvent_complete hne hs hlen hh)

theorem runWords_of_decode {words rest : List Word} {i : Instr} (s : State) (hd : decode words = .ok (i, rest)) :
    runWords words s = finishCommand s (exec i s) := by
  simp only [runWords, hd]

theorem runWords_of_error {words : List Word} {e : DecodeError} {k : Cause} (s : State)
    (hd : decode words = .error e) (hk : decodeCause e = some k) :
    runWords words s = finishCommand s (.next (misuse k s)) := by
  simp only [runWords, hd, hk]

/-- Complete words always come to an end that a reset may discard. -/
theorem runWords_of_complete {cw : Word} {ops : List Word} (s : State) (hlen : ops.length + 1 = commandLength cw) :
    ∃ o, runWords (cw :: ops) s = finishCommand s o := by
  obtain ⟨-, hd⟩ | ⟨-, -, hd⟩ | ⟨i, -, -, -, hd⟩ := decode_complete_cases hlen
  · exact ⟨_, runWords_of_error s hd rfl⟩
  · exact ⟨_, runWords_of_error s hd rfl⟩
  · exact ⟨_, runWords_of_decode s hd⟩

/-- The words kept are those taken, and the wait begins. -/
theorem step_of_missing {s : State} {cw : Word} {ops ws : List Word} {h : List HostAction} (hne : ws ≠ [])
    (hs : s.rx ++ ws = cw :: ops) (hlen : ops.length + 1 < commandLength cw)
    (hh : s.host = ws.map HostAction.send ++ h) (hstop : ∀ w h', h ≠ HostAction.send w :: h') :
    step s = .next { s.taking h with rx := cw :: ops } := by
  rw [step_received (nextEvent_partial hne hs hlen hh hstop)]
  simp only [runWords, decode_eq_incomplete_iff.mpr hlen]
  rfl

/-- What the step takes is at the front of the host's list, and no more than asked for. -/
theorem takeWords_spec (n : Nat) (h : List HostAction) :
    h = (takeWords n h).1.map HostAction.send ++ (takeWords n h).2 ∧ (takeWords n h).1.length ≤ n := by
  fun_induction takeWords n h with
  | case1 n w h ih =>
    obtain ⟨happend, hcount⟩ := ih
    exact ⟨congrArg _ happend, Nat.succ_le_succ hcount⟩
  | case2 => simp

/-- A command's words decode only where there are words. -/
theorem ne_nil_of_decode {ws rest : List Word} {i : Instr} (h : decode ws = .ok (i, rest)) : ws ≠ [] := by
  rintro rfl
  cases h

/-- To a core that keeps no word a whole command is delivered at once. -/
theorem step_of_command {s : State} {ws : List Word} {i : Instr} {h : List HostAction} (hd : decode ws = .ok (i, []))
    (hrx : s.rx = []) (hh : s.host = ws.map HostAction.send ++ h) :
    step s = finishCommand { s with host := h, touched := [] } (exec i { s with host := h, touched := [] }) := by
  obtain ⟨cw, ops, rfl⟩ := List.exists_cons_of_ne_nil (ne_nil_of_decode hd)
  rw [step_complete hrx (decode_length hd) hh, runWords_of_decode _ hd]

/-- Settles O5: without a reset that discards it and unless stuck, the command's own outcome stands. -/
theorem stepRunsTheDecodedCommand : Obligations.StepRunsTheDecodedCommand := by
  intro s ws i h hd hrx hh
  have hstep := step_of_command hd hrx hh
  refine ⟨hstep, fun hno hstuck => ?_⟩
  rw [hstep, finishCommand_of_false _ hno, releaseStuck_of_ne hstuck]

/-- Settles O6: the words kept and those that arrive are one command, however they are cut. -/
theorem partialCommandWaits : Obligations.PartialCommandWaits := by
  refine ⟨fun s => step_quiet, fun s cw ops ws hne hs => ⟨fun h hlen hh hstop => ?_, fun h hlen hh => ?_⟩⟩
  · exact step_of_missing hne hs hlen hh hstop
  · have hstep := step_of_words hne hs hlen hh
    exact ⟨fun i hd => hstep.trans (runWords_of_decode _ hd), fun e k hd hk => hstep.trans (runWords_of_error _ hd hk)⟩

/-- Settles O10: a nonzero reserved bit is the decoder's error once the operand words are there. -/
theorem reservedFieldFaults : Obligations.ReservedFieldFaults := by
  intro s cw ops h hop hres hlen hrx herr hh hno
  have hd : decode (cw :: ops) = .error .reservedField := by
    obtain ⟨hnop, -⟩ | ⟨-, -, hd⟩ | ⟨_, -, hnres, -⟩ := decode_complete_cases hlen
    · exact absurd hop hnop
    · exact hd
    · exact absurd hres hnres
  rw [step_of_decodeError hd rfl hrx hlen hh hno, misuse_of_ok]
  · rfl
  · exact herr

/-! ### Queued commands -/

theorem discardsCommand_sends (ws : List Word) : discardsCommand (ws.map HostAction.send) = false := by
  cases ws <;> rfl

/-- The first of the queued commands runs, with the others left at the port. -/
theorem step_queued {i : Instr} {is : List Instr} {s t : State} (hrx : s.rx = []) (htouched : s.touched = [])
    (h : exec i s = .next t) :
    step { s with host := ((i :: is).flatMap encode).map HostAction.send } =
      .next { t with host := (is.flatMap encode).map HostAction.send } := by
  have hd : decode (encode i) = .ok (i, []) := by simpa using decodeOfEncode i []
  have hexec := exec_setHost ((is.flatMap encode).map HostAction.send) h
  have hwords : ((i :: is).flatMap encode).map HostAction.send =
      (encode i).map HostAction.send ++ (is.flatMap encode).map HostAction.send := by
    rw [List.flatMap_cons, List.map_append]
  have hstep := step_of_command (s := { s with host := ((i :: is).flatMap encode).map HostAction.send }) hd hrx hwords
  rw [hstep, ← htouched, finishCommand_of_false _ (discardsCommand_sends _), hexec]
  rfl

theorem run_succ_of_step {M : Host.Core} {n : Nat} {s u : M.State} (h : M.step s = .next u) :
    M.run (n + 1) s = M.run n u := by
  rw [Host.Core.run, h]

theorem run_queued {is : List Instr} {s t : State} (hrx : s.rx = []) (htouched : s.touched = [])
    (h : execAll is s = .next t) :
    Host.Core.run Sys2Proof.core is.length { s with host := (is.flatMap encode).map HostAction.send } =
      .next { t with host := [] } := by
  induction is generalizing s with
  | nil =>
    cases h
    rfl
  | cons i is ih =>
    obtain ⟨u, hexec, hrest⟩ := execAll_cons_next h
    have hsame := exec_samePlatform hexec
    have hstep : Sys2Proof.core.step _ = _ := step_queued (is := is) hrx htouched hexec
    exact (run_succ_of_step hstep).trans (ih (hsame.rx.trans hrx) (hsame.touched.trans htouched) hrest)

theorem execAll_samePort {is : List Instr} {s t : State} (h : execAll is s = .next t) :
    t.host = s.host ∧ t.rx = s.rx := by
  induction is generalizing s with
  | nil =>
    cases h
    exact ⟨rfl, rfl⟩
  | cons i is ih =>
    obtain ⟨u, hexec, hrest⟩ := execAll_cons_next h
    have hsame := exec_samePlatform hexec
    obtain ⟨hhost, hrx⟩ := ih hrest
    exact ⟨hhost.trans hsame.host, hrx.trans hsame.rx⟩

/-- Settles O7: each step takes one command from the front of the port. -/
theorem queuedCommandsRunInOrder : Obligations.QueuedCommandsRunInOrder := by
  intro is s t hrx htouched hhost h
  obtain ⟨hthost, htrx⟩ := execAll_samePort h
  have hdone : t.host = [] := hthost.trans hhost
  refine ⟨?_, hdone, htrx.trans hrx⟩
  rw [run_queued hrx htouched h, ← hdone]

/-! ### Resets -/

/-- Settles O16: a reset that is the host's next action is the step. -/
theorem hostResetLeaves : Obligations.HostResetLeaves :=
  ⟨fun _ _ hh => ⟨_, step_reset hh, rfl, rfl, rfl, rfl, rfl, rfl, rfl, rfl, rfl, rfl, rfl, rfl⟩,
    rfl, rfl, rfl, rfl, rfl, rfl⟩

theorem finishCommand_of_stuck (s : State) : finishCommand s (.fault .stuckWrite) = awaitReset s := by
  unfold finishCommand
  split <;> rfl

theorem awaitReset_of_some {s t : State} (h : untilReset s.host s = some t) : awaitReset s = .next t := by
  rw [awaitReset, h]

/-- A reset that comes before the answer discards the command whatever it is: the step ends after the reset. -/
theorem step_of_discards {s : State} {cw : Word} {ops ws : List Word} {h : List HostAction} (hne : ws ≠ [])
    (hs : s.rx ++ ws = cw :: ops) (hlen : ops.length + 1 = commandLength cw)
    (hh : s.host = ws.map HostAction.send ++ h) (hd : discardsCommand h = true) :
    ∃ t, untilReset h (s.taking h) = some t ∧ step s = .next t := by
  obtain ⟨t, ht⟩ := untilReset_of_discards hd (s.taking h)
  obtain ⟨o, ho⟩ := runWords_of_complete (s.taking h) hlen
  refine ⟨t, ht, ?_⟩
  rw [step_of_words hne hs hlen hh, ho, finishCommand_of_true o hd]
  exact awaitReset_of_some ht

/-- Settles O42: a stuck WRITE waits for a reset whether or not one discards it. -/
theorem stuckUntilReset : Obligations.StuckUntilReset := by
  intro s ws i h hd hrx hh hstuck
  have hstep := step_of_command hd hrx hh
  rw [hstuck, finishCommand_of_stuck] at hstep
  refine ⟨fun hreset hprogress => ?_, fun before pull after hpull hsplit hreset hprogress => ?_⟩
  · rw [hstep, awaitReset, untilReset_none _ _ hreset hprogress]
  · obtain ⟨t, ht, hhost, hmem, hreadable⟩ :=
      untilReset_append (after := after) hpull hreset hprogress { s with host := h, touched := [] }
    rw [← hsplit] at ht
    obtain ⟨hphase, hvariant, hbackend, herr, hcause, htrx, hcaps, hbackends, hresponses⟩ := untilReset_some ht
    exact ⟨t, hstep.trans (awaitReset_of_some ht), hphase, hvariant, hbackend, herr, hcause, htrx, hhost, hresponses,
      hcaps, hbackends, hmem, hreadable⟩

/-- Settles O55: the reset is waited for, and the stores and changes of Readable before it are done meanwhile. -/
theorem resetDiscardsCommand : Obligations.ResetDiscardsCommand := by
  intro s cw ops ws before after hne hs hlen hh hbefore
  have hreset : HostAction.reset ∉ before := fun hm => by simpa using hbefore _ hm
  have hprogress : HostAction.resetInProgress ∉ before := fun hm => by simpa using hbefore _ hm
  obtain ⟨t, ht, hstep⟩ := step_of_discards hne hs hlen hh (discardsCommand_append hbefore)
  obtain ⟨u, hu, hhost, hmem, hreadable⟩ := untilReset_append (after := after) (.inr rfl) hreset hprogress
    (s.taking (before ++ .resetInProgress :: after))
  cases hu.symm.trans ht
  obtain ⟨hphase, hvariant, hbackend, herr, hcause, htrx, hcaps, hbackends, hresponses⟩ := untilReset_some ht
  exact ⟨t, hstep, hphase, hvariant, hbackend, herr, hcause, htrx, hhost, hresponses, hcaps, hbackends, hmem, hreadable⟩

/-! ### ERR and CAUSE -/

theorem exec_keeps_err {i : Instr} {s t : State} (h : exec i s = .next t) (herr : s.err = true) :
    t.err = true ∧ t.cause = s.cause := by
  by_cases hi : i = .stat
  · subst hi
    cases h
    exact ⟨herr, rfl⟩
  · cases (exec_of_err herr hi).symm.trans h
    exact ⟨herr, rfl⟩

theorem misuse_keeps_err {s : State} (k : Cause) (herr : s.err = true) :
    (misuse k s).err = true ∧ (misuse k s).cause = s.cause := by
  rw [misuse_of_err herr]
  exact ⟨herr, rfl⟩

/-- With ERR = 1 no command gets to its own rule, WRITE's wait among them. -/
theorem exec_ne_stuck_of_err {i : Instr} {s : State} (herr : s.err = true) : exec i s ≠ .fault .stuckWrite := by
  by_cases hi : i = .stat
  · subst hi
    exact nofun
  · rw [exec_of_err herr hi]
    exact nofun

/-- The command word is the first word kept, or the one that comes where none is. -/
theorem append_cons_eq_headD_cons (rx : List Word) (w : Word) (rest : List Word) :
    ∃ ops, rx ++ w :: rest = rx.headD w :: ops := by
  cases rx <;> simp

/-- A reset that waits behind the words taken is due, if the command is complete with them. -/
theorem resetDue_of_taken {s : State} {w : Word} {h' h : List HostAction} {ws : List Word}
    (hh : s.host = .send w :: h')
    (htaken : (ws, h) = takeWords (commandLength (s.rx.headD w) - s.rx.length) s.host)
    (hd : decode (s.rx ++ ws) ≠ .error .incomplete) (hdiscards : discardsCommand h = true) : resetDue s := by
  obtain ⟨happend, hcount⟩ := takeWords_spec (commandLength (s.rx.headD w) - s.rx.length) s.host
  rw [← htaken] at happend hcount
  cases ws with
  | nil =>
    rw [show h = .send w :: h' from happend.symm.trans hh] at hdiscards
    cases hdiscards
  | cons first rest =>
    obtain ⟨rfl, -⟩ : first = w ∧ _ := by simpa [hh] using happend.symm
    obtain ⟨ops, hops⟩ := append_cons_eq_headD_cons s.rx first rest
    have hlength := congrArg List.length hops
    rw [hops] at hd
    have hcomplete := mt decode_eq_incomplete_iff.mpr hd
    refine .inr ⟨first :: rest, h, List.cons_ne_nil _ _, happend, ?_, hdiscards⟩
    rw [hops, List.headD_cons]
    simp only [List.length_append, List.length_cons] at hlength hcount ⊢
    omega

/-- Settles O12: a command finds ERR = 1 and is refused or is STAT, and a reset that was not due does not come. -/
theorem onlyResetClearsError : Obligations.OnlyResetClearsError := by
  refine ⟨fun s t h herr hdue => ?_, fun i s t => exec_keeps_err, fun s hdue => ?_⟩
  · obtain ⟨-, rfl⟩ | ⟨_, _, _, -, rfl⟩ | ⟨_, _, -, rfl⟩ | ⟨h', hreset, -⟩ |
      ⟨w, h', n, ws, host, hh, rfl, htaken, hrecv⟩ := step_next h
    · exact ⟨herr, rfl⟩
    · exact ⟨herr, rfl⟩
    · exact ⟨herr, rfl⟩
    · exact absurd (.inl ⟨h', hreset⟩) hdue
    · obtain ⟨-, rfl⟩ | ⟨k, -, -, rfl⟩ | ⟨i, _, -, -, hexec⟩ | ⟨hd, -, hdiscards | ⟨i, _, -, hstuck⟩⟩ := hrecv
      · exact ⟨herr, rfl⟩
      · exact misuse_keeps_err (s := s.taking host) k herr
      · exact exec_keeps_err (s := s.taking host) hexec herr
      · exact absurd (resetDue_of_taken hh htaken hd hdiscards) hdue
      · exact absurd hstuck (exec_ne_stuck_of_err (s := s.taking host) herr)
  · obtain ⟨h', hreset⟩ | ⟨ws, h, hne, hh, hlen, hdiscards⟩ := hdue
    · exact ⟨_, step_reset hreset, rfl, rfl⟩
    · obtain ⟨cw, ops, hwords⟩ := List.exists_cons_of_ne_nil (List.append_ne_nil_of_right_ne_nil s.rx hne)
      rw [hwords] at hlen
      obtain ⟨t, ht, hstep⟩ := step_of_discards hne hwords hlen hh hdiscards
      obtain ⟨-, -, -, herr, hcause, -⟩ := untilReset_some ht
      exact ⟨t, hstep, herr, hcause⟩

/-! ### The parameters and the host's memory -/

theorem misuse_samePlatform (k : Cause) (s : State) : SamePlatform s (misuse k s) := by
  cases he : s.err with
  | true => exact misuse_of_err he ▸ ⟨rfl, rfl, rfl, rfl, rfl, rfl, rfl⟩
  | false => exact misuse_of_ok he ▸ ⟨rfl, rfl, rfl, rfl, rfl, rfl, rfl⟩

/-- Readable stays up to the reset if the platform does not change it. -/
theorem untilReset_readable {h : List HostAction} {s t : State} (hno : ∀ rs, HostAction.setReadable rs ∉ h)
    (hu : untilReset h s = some t) : t.readable = s.readable := by
  induction h generalizing s with
  | nil => cases hu
  | cons a h ih =>
    have ih := fun {s} => ih (s := s) fun rs hm => hno rs (List.mem_cons_of_mem _ hm)
    cases a with
    | send w => exact ih hu
    | store a b => exact ih (s := hostStore a b s) hu
    | setReadable rs => exact absurd (List.mem_cons_self ..) (hno rs)
    | reset =>
      cases hu
      rfl
    | resetInProgress =>
      cases hu
      rfl

/-- Settles O51: no event but the platform's writes a parameter. -/
theorem parametersConstant : Obligations.ParametersConstant := by
  intro s t h
  obtain ⟨-, rfl⟩ | ⟨_, _, _, -, rfl⟩ | ⟨rs, h', hh, rfl⟩ | ⟨_, -, rfl⟩ |
    ⟨w, h', n, ws, host, -, -, htaken, hrecv⟩ := step_next h
  · exact ⟨rfl, rfl, fun _ => rfl⟩
  · exact ⟨rfl, rfl, fun _ => rfl⟩
  · exact ⟨rfl, rfl, fun hno => absurd (hh ▸ List.mem_cons_self ..) (hno rs)⟩
  · exact ⟨rfl, rfl, fun _ => rfl⟩
  · obtain ⟨-, rfl⟩ | ⟨k, -, -, rfl⟩ | ⟨i, _, -, -, hexec⟩ | ⟨-, hreset, -⟩ := hrecv
    · exact ⟨rfl, rfl, fun _ => rfl⟩
    · have hsame := misuse_samePlatform k (s.taking host)
      exact ⟨hsame.caps, hsame.backends, fun _ => hsame.readable⟩
    · have hsame := exec_samePlatform hexec
      exact ⟨hsame.caps, hsame.backends, fun _ => hsame.readable⟩
    · obtain ⟨-, -, -, -, -, -, hcaps, hbackends, -⟩ := untilReset_some hreset
      refine ⟨hcaps, hbackends, fun hno => untilReset_readable (s := s.taking host) (fun rs hm => hno rs ?_) hreset⟩
      rw [(takeWords_spec n s.host).1, ← htaken]
      exact List.mem_append_right _ hm

/-- Settles O44: the write is read back in a canonical memory, and no other address is written. -/
theorem hostStoreChangesOneByte : Obligations.HostStoreChangesOneByte := by
  intro s addr b h hs hh
  refine ⟨_, step_store hh, ?_, fun a ha => ?_, ?_, rfl, rfl⟩
  · exact Memory.read_write_same addr.toNat b hs.mem_wf
  · exact Memory.read_write_other s.mem b ha
  · exact Memory.wf_write s.mem addr b hs.mem_wf

/-- Settles O54: the regions alone decide whether a read is defined. -/
theorem readableIsThePlatforms : Obligations.ReadableIsThePlatforms := by
  intro s rs h hh
  refine ⟨_, step_setReadable hh, rfl, fun a => ⟨fun hin => ?_, fun hout => ?_⟩⟩
  · exact if_pos ((isReadable_iff rs a).mpr hin)
  · refine if_neg (mt (isReadable_iff rs a).mp ?_)
    rintro ⟨r, hr, hat⟩
    exact hout r hr hat

end Sys2Proof.Machine
end

section
/-! SUPPORT. What the context commands answer (45_variant_adapters.md section 2): INIT's and FINAL's whole next state, OUT
as READ answers it, a table entry, and the status word field by field (10_state.md R27). -/

namespace Sys2Proof.Machine

/-! ### INIT, FINAL, READ, TBLRD -/

/-- Settles O20: each code has its variant, and the context starts with that variant's seed. -/
theorem initStartsContext : Obligations.InitStartsContext := fun _ herr =>
  ⟨exec_init_of_variant (w := .crc32) rfl herr, exec_init_of_variant (w := .crc32Rfc1510) rfl herr,
    exec_init_of_variant (w := .crc24Rfc2440) rfl herr⟩

/-- The bytes of a CRC-24 register whose top byte FINAL masked. -/
theorem leBytes_masked (c : Word) :
    leBytes (c &&& 0x00FFFFFF#32) = ⟨c.extractLsb' 0 8, c.extractLsb' 8 8, c.extractLsb' 16 8, 0⟩ := by
  simp [leBytes, byteAt, BitVec.extractLsb'_and]
  exact ⟨BitVec.and_allOnes, BitVec.and_allOnes, BitVec.and_allOnes⟩

/-- Settles O22: the finalization transform and the byte order of each variant. -/
theorem finalFillsOutput : Obligations.FinalFillsOutput := by
  intro s herr hphase
  have hfinal := exec_final_of_active herr hphase
  refine ⟨fun hv => ?_, fun hv => ?_, fun hv => ?_⟩ <;>
    rw [hfinal, finalizeContext, hv]
  · rw [← BitVec.xor_allOnes]
    rfl
  · rfl
  · rw [← leBytes_masked]
    rfl

theorem byteAt_zero_outWord_leBytes {c : Word} (h : byteAt 3 c = 0) : byteAt 0 (outWord (leBytes c)) = 0 := by
  rw [outWord_leBytes, byteAt_zero_bswap32, h]

/-- Settles O24: READ changes nothing it answers from; OUT is P, one byte higher for CRC-24, whose fourth byte is 0. -/
theorem readAnswersOutput : Obligations.ReadAnswersOutput := by
  intro s herr hphase d
  refine ⟨exec_read_of_finalized herr hphase, exec_read_of_finalized herr hphase, fun hs => ?_⟩
  have hout := hs.out_of_reg hphase
  change outWord s.out = _
  split
  · rename_i hv
    have hlow : byteAt 0 (outWord s.out) = 0 := by
      rw [hout, hv]
      exact byteAt_zero_outWord_leBytes (hs.top_byte hv (by simp [hphase]))
    rw [hv, publishedValue, leadingBytes_three_eq_shiftRight, shiftRight_shiftLeft_of_lowByte hlow]
  · rename_i hv
    exact (publishedValue_of_ne_crc24 hv s.out).symm

/-- Settles O25: each code has its variant, whose family names the table. -/
theorem tblrdAnswersEntry : Obligations.TblrdAnswersEntry := by
  intro s idx herr
  have hentry {v : BitVec 2} {w : Variant} (hv : variantOf v = some w) :
      exec (.tblrd v idx) s = .next (s.answered 0 (entry (familyOf w) idx.toNat)) :=
    (execTblrd_of_variant idx s hv).trans (if_neg (by simp [herr]))
  exact ⟨hentry (w := .crc32) rfl, hentry (w := .crc32Rfc1510) rfl, hentry (w := .crc24Rfc2440) rfl⟩

/-! ### The status word -/

theorem extractLsb'_field_same {w : Nat} (x : BitVec w) (k : Nat) (h : k + w ≤ 32) :
    (x.setWidth 32 <<< k).extractLsb' k w = x := by
  ext i hi
  have hin : k + i < 32 := by omega
  simp [hin, BitVec.getLsbD_eq_getElem hi]

/-- A field shows nothing in the bits below and above it. -/
theorem extractLsb'_field_other {w : Nat} (x : BitVec w) (k a n : Nat) (h : a + n ≤ k ∨ k + w ≤ a) :
    (x.setWidth 32 <<< k).extractLsb' a n = 0 := by
  ext i hi
  have hbit : ¬ a + i < k → x.getLsbD (a + i - k) = false := fun hk => BitVec.getLsbD_of_ge x _ (by omega)
  simpa using fun _ hk _ => hbit (Nat.not_lt.mpr hk)

/-- The five fields of the status word, and the bits R27 reserves. -/
theorem statusWord_fields (s : State) :
    (statusWord s).extractLsb' 0 2 = phaseCode s.phase ∧ (statusWord s).extractLsb' 2 2 = variantCode s.variant ∧
    (statusWord s).extractLsb' 4 4 = 0 ∧ (statusWord s).extractLsb' 8 1 = errBit s.err ∧
    (statusWord s).extractLsb' 9 3 = 0 ∧ (statusWord s).extractLsb' 12 4 = causeCode s.cause ∧
    (statusWord s).extractLsb' 16 3 = outputSize s.phase s.variant ∧ (statusWord s).extractLsb' 19 13 = 0 := by
  have hstatus : statusWord s = (outputSize s.phase s.variant).setWidth 32 <<< 16 |||
      (causeCode s.cause).setWidth 32 <<< 12 ||| (errBit s.err).setWidth 32 <<< 8 |||
      (variantCode s.variant).setWidth 32 <<< 2 ||| (phaseCode s.phase).setWidth 32 <<< 0 := by
    rw [BitVec.shiftLeft_zero, statusWord]
  rw [hstatus]
  simp (disch := omega) only [BitVec.extractLsb'_or, extractLsb'_field_same, extractLsb'_field_other]
  simp

/-- Settles O26: each field of the status word shows its element. -/
theorem statAnswersStatus : Obligations.StatAnswersStatus := by
  intro s
  obtain ⟨hphase, hvariant, hlow, herr, hmid, hcause, hsize, hhigh⟩ := statusWord_fields s
  refine ⟨statusWord s, rfl, ?_, ?_, hlow, ?_, hmid, ?_, ?_, hhigh, fun hs => ⟨fun hidle => ?_, fun hok => ?_⟩⟩
  · rw [hphase]
    cases s.phase <;> rfl
  · rw [hvariant]
    cases s.variant <;> rfl
  · rw [herr]
    cases s.err <;> rfl
  · rw [hcause]
    cases s.cause <;> rfl
  · rw [hsize]
    cases s.phase <;> cases s.variant <;> rfl
  · rw [hvariant, (hs.idle hidle).1]
    rfl
  · rw [hcause, hs.cause_of_err.mp hok]
    rfl

end Sys2Proof.Machine
end

section
/-! SUPPORT. The assembler (30_encoding.md R76, R77): a line emits the words of its command where every value fits its
field, and `wrbytes` groups its bytes by four. -/

namespace Sys2Proof.Machine

/-! ### One value and its field -/

/-- A value that fits goes on, and one that does not is the line's error. -/
theorem bind_ite_some {α β : Type} (p : Prop) [Decidable p] (a : α) (f : α → Option β) :
    (if p then some a else none).bind f = if p then f a else none := by
  split <;> rfl

/-- SLICE and BYTE side by side are the index 256 SLICE + BYTE. -/
theorem ofNat_append_ofNat {k b : Nat} (hk : k < 4) (hb : b < 256) :
    BitVec.ofNat 2 k ++ BitVec.ofNat 8 b = BitVec.ofNat 10 (256 * k + b) := by
  apply BitVec.eq_of_toNat_eq
  have hor : k <<< 8 + b = k <<< 8 ||| b := Nat.shiftLeft_add_eq_or_of_lt hb k
  rw [BitVec.toNat_append, BitVec.toNat_ofNat, BitVec.toNat_ofNat, BitVec.toNat_ofNat, Nat.mod_eq_of_lt hk,
    Nat.mod_eq_of_lt hb, ← hor, Nat.shiftLeft_eq, Nat.mod_eq_of_lt (by omega)]
  omega

/-! ### wrbytes -/

theorem mapM_fitField (width : Nat) (ns : List Nat) :
    ns.mapM (fitField width) = if ∀ n ∈ ns, n < 2 ^ width then some (ns.map (BitVec.ofNat width)) else none := by
  induction ns with
  | nil => simp
  | cons n ns ih =>
    have hcons : (n :: ns).mapM (fitField width) = (fitField width n).bind fun b =>
        (ns.mapM (fitField width)).bind fun bs => some (b :: bs) := List.mapM_cons
    rw [hcons, ih, fitField, bind_ite_some, bind_ite_some, ← ite_and]
    exact if_congr (List.forall_mem_cons (p := (· < 2 ^ width))).symm rfl rfl

/-- The `j`-th whole group of four bytes, packed for WRW (20_memory.md R44). -/
def groupWord (l : List Byte) (j : Nat) : Word :=
  le32 (l.getD (4 * j) 0) (l.getD (4 * j + 1) 0) (l.getD (4 * j + 2) 0) (l.getD (4 * j + 3) 0)

/-- One WRW for each whole group, then one WRB for each remaining byte. -/
theorem wrbytesCommands_eq (l : List Byte) :
    wrbytesCommands l = (List.range (l.length / 4)).map (fun j => .wrw (groupWord l j)) ++
      (l.drop (4 * (l.length / 4))).map .wrb := by
  fun_induction wrbytesCommands l with
  | case1 b0 b1 b2 b3 s ih =>
    have hgroups : (b0 :: b1 :: b2 :: b3 :: s).length / 4 = s.length / 4 + 1 := by
      simp only [List.length_cons]
      omega
    rw [hgroups, List.range_succ_eq_map, List.map_cons, List.map_map, List.cons_append, ih]
    rfl
  | case2 s hshort =>
    have hfew : s.length / 4 = 0 := by
      match s, hshort with
      | [], _ | [_], _ | [_, _], _ | [_, _, _], _ => simp
      | b0 :: b1 :: b2 :: b3 :: s, hshort => exact (hshort b0 b1 b2 b3 s rfl).elim
    rw [hfew]
    rfl

theorem groupWord_map_ofNat (bs : List Nat) (j : Nat) :
    groupWord (bs.map (BitVec.ofNat 8)) j = BitVec.ofNat 8 (bs.getD (4 * j + 3) 0) ++
      BitVec.ofNat 8 (bs.getD (4 * j + 2) 0) ++ BitVec.ofNat 8 (bs.getD (4 * j + 1) 0) ++
        BitVec.ofNat 8 (bs.getD (4 * j) 0) := by
  have hget (i : Nat) : (bs.map (BitVec.ofNat 8)).getD i 0 = BitVec.ofNat 8 (bs.getD i 0) := List.getD_map ..
  simp only [groupWord, hget, le32_eq_append]

/-! ### The statement -/

/-- Settles O47: the checks of a line's values, one after the other, are one check of all of them. -/
theorem assemblerNeverTruncates : Obligations.AssemblerNeverTruncates := by
  refine ⟨fun v => ?_, fun a l => ?_, fun b => ?_, fun w => ?_, fun v k b => ?_, fun v n => ?_, ⟨rfl, rfl, rfl⟩,
    fun n => ?_, fun v a l => ?_, fun bs => ?_⟩
  · simp only [asmWords, asmCommands, fitVariant, Option.map_if]
    rfl
  · simp only [asmWords, asmCommands, fitField, bind_ite_some, Option.map_if, ← ite_and]
    rfl
  · simp only [asmWords, asmCommands, fitField, Option.map_if]
    rfl
  · simp only [asmWords, asmCommands, fitField, Option.map_if]
    rfl
  · simp only [asmWords, asmCommands, fitVariant, fitField, bind_ite_some, Option.map_if, ← ite_and]
    refine if_ctx_congr Iff.rfl ?_ fun _ => rfl
    rintro ⟨-, hk, hb⟩
    rw [ofNat_append_ofNat hk hb]
    rfl
  · simp only [asmWords, asmCommands, fitVariant, fitField, bind_ite_some, Option.map_if, ← ite_and]
    rfl
  · simp only [asmWords, fitField, Option.map_if]
  · simp only [asmWords, asmCommands, fitVariant, fitField, bind_ite_some, Option.map_if, ← ite_and]
    rfl
  · have hdrop (n : Nat) : ((bs.map (BitVec.ofNat 8)).drop n).map Instr.wrb =
        (bs.drop n).map fun b => .wrb (BitVec.ofNat 8 b) := by
      rw [← List.map_drop, List.map_map]
      rfl
    have hwords : asmWords (.wrbytes bs) =
        ((bs.mapM (fitField 8)).map wrbytesCommands).map fun is => is.flatMap encode := rfl
    rw [hwords, mapM_fitField, Option.map_if, Option.map_if]
    simp only [wrbytesCommands_eq, groupWord_map_ofNat, hdrop, List.length_map]
    rfl

end Sys2Proof.Machine
end
